-- ==== Sys2Proof/Word.lean ====
section
/-! DEFINITION. The word types of the machine: 8-bit data and 16-bit addresses (00_scope.md R6, R9).
Every register write and every address computation wraps at the width of its type, as R9 asks. -/

namespace Sys2Proof

/-- A byte: A, X, Y, SP and one memory cell (R6, DATA_WIDTH = 8). -/
abbrev Byte := BitVec 8

/-- A word: PC and a memory address (R6, ADDR_WIDTH = 16). -/
abbrev Word := BitVec 16

end Sys2Proof
end

