-- ==== Sys2Proof/Syntax.lean ====
section
/-! DEFINITION. The instructions, one constructor per row of the opcode table (30_encoding.md R63), and
the types of an Instruction Table entry (00_scope.md R13, 30_encoding.md R60, R63). -/

namespace Sys2Proof

/-- A decoded instruction with its operand as the instruction bytes give it (R62). -/
inductive Instr where
  /-- JSR absolute, `20 ll hh`: the 16-bit target (42_subroutine.md R110). -/
  | jsr (target : Word)
  /-- LDA zero page, `A5 zz`: the address in page 0 (41_load.md R101). -/
  | ldaZp (zp : Byte)
  /-- LDA immediate, `A9 ii`: the operand value (41_load.md R100). -/
  | ldaImm (imm : Byte)
  /-- LDA zero page,X, `B5 zz`: the address before indexing (41_load.md R102). -/
  | ldaZpx (zp : Byte)
  /-- NOP, `EA` (43_nop.md R120). -/
  | nop
deriving DecidableEq, Repr

/-- The addressing modes (R13, R60). -/
inductive Mode where
  | implied
  | immediate
  | zeroPage
  | zeroPageX
  | absolute
deriving DecidableEq, Repr

/-- What Decode names for a mapped opcode (R64): the instruction without its operand. -/
inductive Operation where
  | jsrAbs
  | ldaZp
  | ldaImm
  | ldaZpx
  | nop
deriving DecidableEq, Repr

/-- One entry of the Instruction Table: opcode, mnemonic, mode and base cycle cost (R63), with the
operation that R64 maps the opcode to. -/
structure TableEntry where
  opcode : Byte
  operation : Operation
  mnemonic : String
  mode : Mode
  cycles : Nat
deriving DecidableEq, Repr

/-- Why the decoder reads no instruction from a list of bytes. -/
inductive DecodeError where
  /-- The list is empty, so there is no opcode byte. -/
  | noBytes
  /-- The first byte is one of the 251 unmapped opcodes (R65). -/
  | unmapped (opcode : Byte)
  /-- The opcode is mapped, and the list ends before its operand bytes do. -/
  | truncated (opcode : Byte)
deriving DecidableEq, Repr

end Sys2Proof
end

