-- ==== Sys2Proof/Decode.lean ====
section
/-! DEFINITION. The Instruction Table, the decoder, total on any bytes, and the encoder
(30_encoding.md R60 to R68). The byte-order helpers stand here too (20_memory.md R45). -/

namespace Sys2Proof

/-- Bits 7 to 0 of a word: the byte at the lower address (R45). -/
def lowByte (w : Word) : Byte := w.extractLsb' 0 8

/-- Bits 15 to 8 of a word: the byte at the higher address (R45). -/
def highByte (w : Word) : Byte := w.extractLsb' 8 8

/-- `hi : lo` of R10, the little-endian assembly of R45 and R62. -/
def wordOfBytes (hi lo : Byte) : Word := hi ++ lo

/-- `zext16` of R10. -/
def zext16 (b : Byte) : Word := b.setWidth 16

/-- OP_JSR_ABS (R6). -/
def opJsrAbs : Byte := 0x20

/-- OP_LDA_ZP (R7, decision D1; the spec marks it as general knowledge). PRESUMED, log 1. Unsafe. -/
def opLdaZp : Byte := 0xA5

/-- OP_LDA_IMM (R6). -/
def opLdaImm : Byte := 0xA9

/-- OP_LDA_ZPX (R7, decision D2; the spec marks it as general knowledge). PRESUMED, log 1. Unsafe. -/
def opLdaZpx : Byte := 0xB5

/-- OP_NOP (R7, decision D3; the spec marks it as general knowledge). PRESUMED, log 1. Unsafe. -/
def opNop : Byte := 0xEA

/-- The total cost of No-Op as the table gives it, NOP_CYCLES (R7, decision D4). PRESUMED, log 3. Unsafe. -/
def nopCycles : Nat := 2

/-- The Instruction Table of R63: exactly five entries (decision D5, log 4), constant (R68). -/
def instructionTable : List TableEntry :=
  [ ⟨opJsrAbs, .jsrAbs, "JSR", .absolute, 6⟩,
    ⟨opLdaZp, .ldaZp, "LDA", .zeroPage, 3⟩,
    ⟨opLdaImm, .ldaImm, "LDA", .immediate, 2⟩,
    ⟨opLdaZpx, .ldaZpx, "LDA", .zeroPageX, 4⟩,
    ⟨opNop, .nop, "NOP", .implied, nopCycles⟩ ]

/-- The lookup on all eight opcode bits (R61, R64). No entry means unmapped (R65). -/
def lookupOpcode (op : Byte) : Option TableEntry :=
  instructionTable.find? (fun e => e.opcode == op)

/-- Bytes of an instruction of each format (R60). -/
def Mode.length : Mode → Nat
  | .implied => 1
  | .immediate => 2
  | .zeroPage => 2
  | .zeroPageX => 2
  | .absolute => 3

/-- The instruction of an operation, its operand assembled from the bytes after the opcode (R62),
and the bytes that are left. -/
def decodeOperand (op : Byte) : Operation → List Byte → Except DecodeError (Instr × List Byte)
  | .jsrAbs, lo :: hi :: rest => .ok (.jsr (wordOfBytes hi lo), rest)
  | .jsrAbs, [_] => .error (.truncated op)
  | .jsrAbs, [] => .error (.truncated op)
  | .ldaZp, zp :: rest => .ok (.ldaZp zp, rest)
  | .ldaZp, [] => .error (.truncated op)
  | .ldaImm, imm :: rest => .ok (.ldaImm imm, rest)
  | .ldaImm, [] => .error (.truncated op)
  | .ldaZpx, zp :: rest => .ok (.ldaZpx zp, rest)
  | .ldaZpx, [] => .error (.truncated op)
  | .nop, rest => .ok (.nop, rest)

/-- The decoder: the instruction at the head of the bytes and the bytes after it (R60, R64). A list
that ends too soon is rejected as truncated: DESIGN CHOICE, log 25. Safe. -/
def decode : List Byte → Except DecodeError (Instr × List Byte)
  | [] => .error .noBytes
  | op :: rest =>
    match lookupOpcode op with
    | none => .error (.unmapped op)
    | some e => decodeOperand op e.operation rest

/-- The encoder: the bytes of an instruction, first byte at the lowest address (R60). -/
def encode : Instr → List Byte
  | .jsr target => [opJsrAbs, lowByte target, highByte target]
  | .ldaZp zp => [opLdaZp, zp]
  | .ldaImm imm => [opLdaImm, imm]
  | .ldaZpx zp => [opLdaZpx, zp]
  | .nop => [opNop]

/-- The opcode byte of an instruction (R63). -/
def Instr.opcode : Instr → Byte
  | .jsr _ => opJsrAbs
  | .ldaZp _ => opLdaZp
  | .ldaImm _ => opLdaImm
  | .ldaZpx _ => opLdaZpx
  | .nop => opNop

/-- The addressing mode the table gives the instruction (R63). -/
def Instr.mode (i : Instr) : Mode := (lookupOpcode i.opcode).elim .implied TableEntry.mode

/-- The length in bytes, told from the opcode alone (R60). -/
def Instr.length (i : Instr) : Nat := i.mode.length

/-- The total cycle cost the table gives the instruction (R63, R93). -/
def Instr.cycles (i : Instr) : Nat := (lookupOpcode i.opcode).elim 0 TableEntry.cycles

/-- Whether a list of bytes is exactly one whole instruction: a mapped opcode, and as many bytes as
its mode has (R60, R65, R66). -/
def wellFormedEncoding : List Byte → Bool
  | [] => false
  | op :: rest =>
    match lookupOpcode op with
    | none => false
    | some e => rest.length + 1 == e.mode.length

/-- The three bytes of a word numbered as the opcode table numbers its bits: byte k is bits
`8k+7` to `8k`, the first at the lowest address. Bits from `nbits` up are zero. -/
def tableWordBytes (nbits w : Nat) : List Byte :=
  let v := w % 2 ^ nbits
  [BitVec.ofNat 8 v, BitVec.ofNat 8 (v / 2 ^ 8), BitVec.ofNat 8 (v / 2 ^ 16)]

/-- The instruction the decoder reads from a word of the opcode table. -/
def decodeTableWord (nbits w : Nat) : Option Instr :=
  match decode (tableWordBytes nbits w) with
  | .ok (i, _) => some i
  | .error _ => none

/-- One hexadecimal digit of a number below 16. -/
def hexDigit (n : Nat) : Char :=
  if n < 10 then Char.ofNat (48 + n) else Char.ofNat (55 + n)

/-- A byte as two hexadecimal digits. -/
def hexByte (b : Byte) : List Char := [hexDigit (b.toNat / 16), hexDigit (b.toNat % 16)]

/-- The text of an instruction in the conventional syntax of R67, as characters. The spec marks the
syntax as general knowledge, for examples only. PRESUMED, log 24. Safe. -/
def Instr.assembly : Instr → List Char
  | .jsr target => ['J', 'S', 'R', ' ', '$'] ++ hexByte (highByte target) ++ hexByte (lowByte target)
  | .ldaZp zp => ['L', 'D', 'A', ' ', '$'] ++ hexByte zp
  | .ldaImm imm => ['L', 'D', 'A', ' ', '#', '$'] ++ hexByte imm
  | .ldaZpx zp => ['L', 'D', 'A', ' ', '$'] ++ hexByte zp ++ [',', 'X']
  | .nop => ['N', 'O', 'P']

end Sys2Proof
end

