-- ==== Sys2Proof/Config.lean ====
section
/-! DEFINITION. What is fixed for this hardware: sizes and the constants Reset loads (00_scope.md R6,
10_state.md R35). The spec leaves no value free, so no constant here is opaque. The parameters of R7
that a test could show wrong stand in Decode.lean and Machine/Params.lean. -/

namespace Sys2Proof.Config

/-- MEM_SIZE: addresses 0 to 65535 (R6, R32). -/
def memSize : Nat := 65536

/-- RESET_PC, loaded into PC itself with no vector read (R6, R35; 90_conflicts.md C1). -/
def resetPc : Word := 0xFFFC

/-- A, X, Y and SP after Construct and Reset (R35). -/
def resetRegister : Byte := 0x00

/-- The cycle budget after Construct and Reset (R35, decision D18). -/
def resetBudget : Nat := 0

end Sys2Proof.Config
end

