-- ==== Sys2Proof/Machine/State.lean ====
section
/-! DEFINITION. The state of the machine (10_state.md R20), its faults and refusals, and reset. -/

namespace Sys2Proof.Machine

/-- The seven independent status flags (R27). -/
structure Flags where
  /-- Carry. -/
  c : Bool
  /-- Zero. -/
  z : Bool
  /-- InterruptDisable; gates nothing (60_exceptions.md R137). -/
  i : Bool
  /-- Decimal. -/
  d : Bool
  /-- Break; records nothing (60_exceptions.md R137). -/
  b : Bool
  /-- Overflow. -/
  v : Bool
  /-- Negative. -/
  n : Bool
deriving DecidableEq, Repr

/-- A flag by name, for the host operation that sets one (R27, decision D14). -/
inductive Flag where
  | c
  | z
  | i
  | d
  | b
  | v
  | n
deriving DecidableEq, Repr

/-- The execute-loop state (R34). -/
inductive RunState where
  /-- No Execute is running. -/
  | idle
  /-- An Execute is running with cycles left. -/
  | dispatching
  /-- The unmapped opcode `byte` was fetched from `pc`; lasts until Reset (60_exceptions.md R134). -/
  | faulted (byte : Byte) (pc : Word)
deriving DecidableEq, Repr

/-- The attached memory (R32): the cells that differ from the filler, by strictly rising address.
An unlisted address reads as the filler (`Memory.read` in Ops.lean). -/
abbrev Memory := List Host.Cell

/-- The complete state of the block (R20). -/
structure State where
  a : Byte
  x : Byte
  y : Byte
  sp : Byte
  pc : Word
  p : Flags
  mem : Memory
  budget : Nat
  run : RunState
deriving DecidableEq, Repr

/-- Why the machine stops. -/
inductive Fault where
  /-- Raised by `step` in the Faulted state, by no instruction: the record of the one exception of
  the hardware (60_exceptions.md R130, R134). Safe: the machine makes no step until Reset. -/
  | invalidOpcode (byte : Byte) (pc : Word)
deriving DecidableEq, Repr

/-- Why the model gives no answer. -/
inductive Refusal where
  /-- Raised by an arm of `exec` that has no meaning yet; no arm of this model raises it. Safe. -/
  | notModelled (mnemonic : String)
deriving DecidableEq, Repr

/-- Every flag 0 (R35). -/
def Flags.cleared : Flags := ⟨false, false, false, false, false, false, false⟩

/-- The state after Construct and after Reset (R35, 70_reset_and_hazards.md R150, R151). Memory lists
no cell, so every cell reads as the filler. Budget 0 and Idle are decision D18 of the spec (log 16). -/
def State.reset : State where
  a := Config.resetRegister
  x := Config.resetRegister
  y := Config.resetRegister
  sp := Config.resetRegister
  pc := Config.resetPc
  p := Flags.cleared
  mem := []
  budget := Config.resetBudget
  run := .idle

end Sys2Proof.Machine
end

