-- ==== Sys2Proof/Machine/Params.lean ====
section
/-! DEFINITION. Parameters of the machine that the spec fixes by a decision or in its table of sizes
(00_scope.md R6, R7). -/

namespace Sys2Proof.Machine

/-- FILLER, the byte of a cell nothing has written: the no-op opcode (R7, R50, decision D3).
PRESUMED, log 2. Unsafe. -/
def filler : Byte := opNop

/-- STACK_PAGE, the high byte of every stack address, as the base 0x0100 (R6). -/
def stackBase : Word := 0x0100

/-- JSR_SP_STEP (R7, decision D6, 90_conflicts.md C2). DEDUCED, log 5. Unsafe. -/
def jsrSpStep : Byte := 2

/-- Cycles of one byte fetch (40_dispatch.md R87). -/
def fetchCycles : Nat := 1

/-- Cycles of one dereference (R89, R90). -/
def dereferenceCycles : Nat := 1

/-- Cycles of the index addition (R90). -/
def indexCycles : Nat := 1

/-- Cycles of a word write (20_memory.md R44). -/
def wordWriteCycles : Nat := 2

/-- The internal cycle of JSR (42_subroutine.md R110). -/
def jsrInternalCycles : Nat := 1

/-- The internal cycle of NOP: what NOP_CYCLES has beyond the opcode fetch (43_nop.md R120,
decision D4). PRESUMED, log 3. Unsafe. -/
def nopInternalCycles : Nat := nopCycles - fetchCycles

end Sys2Proof.Machine
end

