-- ==== Sys2Proof/Machine/Ops.lean ====
section
/-! DEFINITION. The named operations over registers and memory (00_scope.md R10), the cycle
deduction, the byte fetch, the word write, and taking the one exception of the hardware. -/

namespace Sys2Proof.Machine

/-- The byte at an address; an unlisted address holds the filler (20_memory.md R41, R50). -/
def Memory.read : Memory → Nat → Byte
  | [], _ => filler
  | (k, v) :: m, addr => if k = addr then v else Memory.read m addr

/-- A list of cells with a cell put before the first higher address. -/
def Memory.insert (addr : Nat) (v : Byte) : Memory → Memory
  | [] => [(addr, v)]
  | (k, u) :: m => if addr < k then (addr, v) :: (k, u) :: m else (k, u) :: Memory.insert addr v m

/-- A list of cells without the cells of an address. -/
def Memory.erase (addr : Nat) : Memory → Memory
  | [] => []
  | (k, u) :: m => if k = addr then Memory.erase addr m else (k, u) :: Memory.erase addr m

/-- M[addr] <- v, keeping the canonical form (20_memory.md R42). -/
def Memory.write (m : Memory) (addr : Nat) (v : Byte) : Memory :=
  if v = filler then Memory.erase addr m else Memory.insert addr v (Memory.erase addr m)

/-- The canonical form: addresses strictly rising and inside the 65536 bytes (10_state.md R32), and
no cell listed that holds what an unlisted address reads as. -/
abbrev Memory.wf (m : Memory) : Prop :=
  m.Pairwise (fun c d => c.1 < d.1) ∧ ∀ c ∈ m, c.1 < Config.memSize ∧ c.2 ≠ filler

/-- A <- v. -/
def State.withA (s : State) (v : Byte) : State := { s with a := v }
/-- X <- v. -/
def State.withX (s : State) (v : Byte) : State := { s with x := v }
/-- Y <- v. -/
def State.withY (s : State) (v : Byte) : State := { s with y := v }
/-- SP <- v. -/
def State.withSp (s : State) (v : Byte) : State := { s with sp := v }
/-- PC <- v. -/
def State.withPc (s : State) (v : Word) : State := { s with pc := v }
/-- P <- v, all seven flags. -/
def State.withP (s : State) (v : Flags) : State := { s with p := v }
/-- M <- m. -/
def State.withMem (s : State) (m : Memory) : State := { s with mem := m }
/-- budget <- n. -/
def State.withBudget (s : State) (n : Nat) : State := { s with budget := n }
/-- run <- r. -/
def State.withRun (s : State) (r : RunState) : State := { s with run := r }

/-- MemRead(addr, 1) (20_memory.md R41). -/
def State.memRead (s : State) (addr : Word) : Byte := s.mem.read addr.toNat

/-- MemWrite(addr, 1, v) (20_memory.md R42). -/
def State.memWrite (s : State) (addr : Word) (v : Byte) : State :=
  s.withMem (s.mem.write addr.toNat v)

/-- Memory initialize: every cell holds the filler (20_memory.md R50). -/
def State.fillMemory (s : State) : State := s.withMem []

/-- Consume(n): the saturating cycle deduction (00_scope.md R10, 40_dispatch.md R83). -/
def State.consume (s : State) (n : Nat) : State :=
  s.withBudget (if n ≤ s.budget then s.budget - n else 0)

/-- What a fetch does beside reading: PC moves on by one and one cycle is consumed (40_dispatch.md R87). -/
def State.advance (s : State) : State := (s.withPc (s.pc + 1)).consume fetchCycles

/-- Fetch(): the byte at PC, and the state after (40_dispatch.md R87). -/
def State.fetch (s : State) : Byte × State := (s.memRead s.pc, s.advance)

/-- The bytes the decoder is given: as many as the longest instruction has, from PC on, addresses
modulo 2^16 (30_encoding.md R60). Reading ahead has no side effect (20_memory.md R47). DEDUCED, log 18. Safe. -/
def State.fetchBytes (s : State) : List Byte :=
  [s.memRead s.pc, s.memRead (s.pc + 1), s.memRead (s.pc + 2)]

/-- The address of the stack slot at an offset (20_memory.md R49). -/
def stackAddr (offset : Byte) : Word := stackBase ||| zext16 offset

/-- WriteWord(lo_addr, hi_addr, value) (20_memory.md R44). -/
def State.writeWord (s : State) (loAddr hiAddr : Word) (value : Word) : State :=
  ((s.memWrite loAddr (lowByte value)).memWrite hiAddr (highByte value)).consume wordWriteCycles

/-- A word pushed at SP: low byte at the slot SP names, high byte at the next slot of the stack page
(20_memory.md R49, decision D7; DESIGN CHOICE of the spec, log 6), then SP raised by two (42_subroutine.md
R110, decision D6, log 5). Unsafe. -/
def State.pushWord (s : State) (value : Word) : State :=
  (s.writeWord (stackAddr s.sp) (stackAddr (s.sp + 1)) value).withSp (s.sp + jsrSpStep)

/-- Taking InvalidOpcode, in the state after the opcode fetch: run becomes Faulted with the record
and nothing else changes (60_exceptions.md R133, decision D9; DEDUCED, log 8). There is no return
from it (R134): only Reset leaves Faulted. -/
def State.takeInvalidOpcode (s : State) (byte : Byte) (pc : Word) : State :=
  s.withRun (.faulted byte pc)

/-- The end of a Step: Idle if no budget remains (40_dispatch.md R82). -/
def State.endStep (s : State) : State := if s.budget = 0 then s.withRun .idle else s

/-- The first lines of Execute: the budget is loaded and the loop is entered if it is not zero
(40_dispatch.md R80). -/
def State.startExecute (s : State) (b : Nat) : State :=
  (s.withBudget b).withRun (if b = 0 then .idle else .dispatching)

/-- Bytes stored from an address upward, addresses modulo 2^16 (70_reset_and_hazards.md R153, Load). -/
def State.storeBytes (s : State) (addr : Word) : List Byte → State
  | [] => s
  | b :: bs => (s.memWrite addr b).storeBytes (addr + 1) bs

/-- A state whose next step fetches: Dispatching with at least one cycle, as Execute(1) leaves it, or
with the cycles it already has. DESIGN CHOICE, log 19. -/
def State.readyToFetch (s : State) : State :=
  (s.withBudget (if s.budget = 0 then 1 else s.budget)).withRun .dispatching

end Sys2Proof.Machine
end

