-- ==== Sys2Proof/Machine/Flags.lean ====
section
/-! DEFINITION. The status-flag logic (10_state.md R27 to R30). -/

namespace Sys2Proof.Machine

/-- The flags after SetZN(v): Z and N from the byte, the other five kept (R28, R29). -/
def Flags.setZN (p : Flags) (v : Byte) : Flags := { p with z := v == 0, n := v.getLsbD 7 }

/-- SetZN(v) (R28). -/
def State.setZN (s : State) (v : Byte) : State := s.withP (s.p.setZN v)

/-- One flag read by name. -/
def Flags.get (p : Flags) : Flag → Bool
  | .c => p.c
  | .z => p.z
  | .i => p.i
  | .d => p.d
  | .b => p.b
  | .v => p.v
  | .n => p.n

/-- One flag written by name, the others kept (R27). -/
def Flags.set (p : Flags) (f : Flag) (value : Bool) : Flags :=
  match f with
  | .c => { p with c := value }
  | .z => { p with z := value }
  | .i => { p with i := value }
  | .d => { p with d := value }
  | .b => { p with b := value }
  | .v => { p with v := value }
  | .n => { p with n := value }

/-- The bit a flag has in the packed byte (R30). -/
def Flag.bit : Flag → Nat
  | .c => 0
  | .z => 1
  | .i => 2
  | .d => 3
  | .b => 4
  | .v => 5
  | .n => 6

/-- The packed status byte (R30). Bit 7 reads as 0 by decision D17 of the spec (log 15). -/
def Flags.packed (p : Flags) : Byte :=
  BitVec.ofBoolListLE [p.c, p.z, p.i, p.d, p.b, p.v, p.n, false]

/-- The seven flags a packed byte stands for (R30). -/
def Flags.ofPacked (w : Byte) : Flags where
  c := w.getLsbD 0
  z := w.getLsbD 1
  i := w.getLsbD 2
  d := w.getLsbD 3
  b := w.getLsbD 4
  v := w.getLsbD 5
  n := w.getLsbD 6

end Sys2Proof.Machine
end

