-- ==== Sys2Proof/Machine/Operands.lean ====
section
/-! DEFINITION. The addressing modes (40_dispatch.md R88 to R92). The operand byte or bytes come from
the decoded instruction; fetching one is `State.advance`, and the byte it would read is the operand
itself (log 18). Each mode answers its value and the state after. -/

namespace Sys2Proof.Machine

/-- ResolveImmediate (R88): the operand byte is the value. -/
def resolveImmediate (imm : Byte) (s : State) : Byte × State := (imm, s.advance)

/-- The effective address of zero page (R62, R89). -/
def zeroPageAddr (zp : Byte) : Word := zext16 zp

/-- The effective address of zero page,X: the sum wraps inside page 0 (R62, R90). -/
def zeroPageXAddr (zp x : Byte) : Word := zext16 (zp + x)

/-- ResolveZeroPage (R89). -/
def resolveZeroPage (zp : Byte) (s : State) : Byte × State :=
  let s1 := s.advance
  (s1.memRead (zeroPageAddr zp), s1.consume dereferenceCycles)

/-- ResolveZeroPageX (R90). -/
def resolveZeroPageX (zp : Byte) (s : State) : Byte × State :=
  let s1 := s.advance
  let s2 := s1.consume indexCycles
  (s2.memRead (zeroPageXAddr zp s1.x), s2.consume dereferenceCycles)

/-- ResolveAbsolute (R91): two bytes fetched, the address not dereferenced. -/
def resolveAbsolute (target : Word) (s : State) : Word × State := (target, s.advance.advance)

/-- Implied mode (R92): no operand byte and no cycle. -/
def resolveImplied (s : State) : State := s

end Sys2Proof.Machine
end

