-- ==== Sys2Proof/Machine/Load.lean ====
section
/-! DEFINITION. Load Accumulator (41_load.md R100 to R102). A meaning starts in the state after the
opcode fetch (00_scope.md R12, log 23). -/

namespace Sys2Proof.Machine

/-- What the three forms share: A takes the byte and SetZN sees it. -/
def loadA (operand : Byte × State) : Host.Outcome State Fault Refusal :=
  .next ((operand.2.withA operand.1).setZN operand.1)

/-- LDA_ZP (R101). -/
def execLdaZp (zp : Byte) (s : State) : Host.Outcome State Fault Refusal :=
  loadA (resolveZeroPage zp s)

/-- LDA_IMM (R100). -/
def execLdaImm (imm : Byte) (s : State) : Host.Outcome State Fault Refusal :=
  loadA (resolveImmediate imm s)

/-- LDA_ZPX (R102). -/
def execLdaZpx (zp : Byte) (s : State) : Host.Outcome State Fault Refusal :=
  loadA (resolveZeroPageX zp s)

end Sys2Proof.Machine
end

