-- ==== Sys2Proof/Machine/Nop.lean ====
section
/-! DEFINITION. No-Op (43_nop.md R120). The meaning starts in the state after the opcode fetch
(00_scope.md R12, log 23). -/

namespace Sys2Proof.Machine

/-- NOP (R120): its internal cycle and no other effect. -/
def execNop (s : State) : Host.Outcome State Fault Refusal :=
  .next ((resolveImplied s).consume nopInternalCycles)

end Sys2Proof.Machine
end

