-- ==== Sys2Proof/Machine/Subroutine.lean ====
section
/-! DEFINITION. Jump to Subroutine (42_subroutine.md R110). The meaning starts in the state after the
opcode fetch (00_scope.md R12, log 23). -/

namespace Sys2Proof.Machine

/-- JSR_ABS (R110): both operand bytes are fetched first, so that PC - 1 is the address of the
instruction's last byte; then the push, the jump and the internal cycle. -/
def execJsr (target : Word) (s : State) : Host.Outcome State Fault Refusal :=
  let operand := resolveAbsolute target s
  let ret := operand.2.pc - 1
  .next (((operand.2.pushWord ret).withPc operand.1).consume jsrInternalCycles)

end Sys2Proof.Machine
end

