-- ==== Sys2Proof/Machine/Dispatch.lean ====
section
/-! DEFINITION. The dispatch of 40_dispatch.md R82: one arm per instruction. -/

namespace Sys2Proof.Machine

/-- An instruction's own pseudocode, from the state after the opcode fetch (R12, R82). -/
def exec (i : Instr) (s : State) : Host.Outcome State Fault Refusal :=
  match i with
  | .jsr target => Sys2Proof.Machine.execJsr target s
  | .ldaZp zp => Sys2Proof.Machine.execLdaZp zp s
  | .ldaImm imm => Sys2Proof.Machine.execLdaImm imm s
  | .ldaZpx zp => Sys2Proof.Machine.execLdaZpx zp s
  | .nop => Sys2Proof.Machine.execNop s

end Sys2Proof.Machine
end

