-- ==== Sys2Proof/Machine/Loop.lean ====
section
/-! DEFINITION. The body of the execute loop (40_dispatch.md R81, R82): what one step does in each
execute-loop state. -/

namespace Sys2Proof.Machine

/-- The end of a Step applied to what an instruction answers (R82). -/
def endStepOutcome : Host.Outcome State Fault Refusal → Host.Outcome State Fault Refusal
  | .next t => .next t.endStep
  | .fault r => .fault r
  | .refused r => .refused r

/-- Decode of the bytes at PC (30_encoding.md R64). -/
def State.decodeAtPc (s : State) : Except DecodeError (Instr × List Byte) := decode s.fetchBytes

/-- One Step (R82): the opcode fetch, the lookup, then the instruction or InvalidOpcode. The record
holds the opcode byte and its address (60_exceptions.md R132). The entry is a next state (R133, log 8). -/
def fetchExecute (s : State) : Host.Outcome State Fault Refusal :=
  match s.decodeAtPc with
  | .ok (i, _) => endStepOutcome (exec i s.fetch.2)
  | .error _ => .next (s.fetch.2.takeInvalidOpcode s.fetch.1 s.pc)

/-- A step while Dispatching: the budget is tested before anything is fetched (R81, 60_exceptions.md
R138). With no budget the loop ends (R84; a state no run reaches: DESIGN CHOICE, log 20). -/
def stepDispatching (s : State) : Host.Outcome State Fault Refusal :=
  if s.budget = 0 then .next (s.withRun .idle) else fetchExecute s

/-- A step while Idle: the core waits and all state survives (60_exceptions.md R144). DEDUCED, log 10. -/
def stepIdle (s : State) : Host.Outcome State Fault Refusal := .next s

/-- A step while Faulted: none is made, and the same failure is reported again (60_exceptions.md R134,
decision D10, log 9). -/
def stepFaulted (byte : Byte) (pc : Word) : Host.Outcome State Fault Refusal :=
  .fault (.invalidOpcode byte pc)

end Sys2Proof.Machine
end

