-- ==== Sys2Proof/Machine/Step.lean ====
section
/-! DEFINITION. One step of the machine (40_dispatch.md R81, R82), and a state that is about to run a
given word. -/

namespace Sys2Proof.Machine

/-- One step: what the execute-loop state asks for (10_state.md R34). -/
def step (s : State) : Host.Outcome State Fault Refusal :=
  match s.run with
  | .idle => stepIdle s
  | .dispatching => stepDispatching s
  | .faulted byte pc => stepFaulted byte pc

/-- The state with a word of the opcode table stored at PC, and ready to fetch it: it stands for the
host's Load followed by the first lines of Execute (70_reset_and_hazards.md R153, R154, log 19). -/
def State.withFetchWord (s : State) (nbits w : Nat) : State :=
  (s.storeBytes s.pc (tableWordBytes nbits w)).readyToFetch

end Sys2Proof.Machine
end

