-- ==== Sys2Proof/Machine/HostInterface.lean ====
section
/-! DEFINITION. What the outside world does to the machine (70_reset_and_hazards.md R150 to R153,
40_dispatch.md R80, R94). No operation here is a step of the core. -/

namespace Sys2Proof.Machine

/-- Construct (R150): the state of 10_state.md R35. -/
def construct : State := State.reset

/-- Reset (R151), in any state: registers, flags, memory, then budget and run (decision D18, log 16). -/
def hostReset (s : State) : State :=
  ((((((((s.withA Config.resetRegister).withX Config.resetRegister).withY Config.resetRegister).withSp
    Config.resetRegister).withPc Config.resetPc).withP Flags.cleared).fillMemory).withBudget
    Config.resetBudget).withRun .idle

/-- Load (R153, 20_memory.md R55): the host writes one byte of memory. -/
def hostLoad (addr : Word) (v : Byte) (s : State) : State := s.memWrite addr v

/-- Set registers (R153, decision D14, log 13). -/
def hostSetA (v : Byte) (s : State) : State := s.withA v
/-- Set registers: X. -/
def hostSetX (v : Byte) (s : State) : State := s.withX v
/-- Set registers: Y. -/
def hostSetY (v : Byte) (s : State) : State := s.withY v
/-- Set registers: SP. -/
def hostSetSp (v : Byte) (s : State) : State := s.withSp v
/-- Set registers: PC. -/
def hostSetPc (v : Word) (s : State) : State := s.withPc v
/-- Set registers: one flag. -/
def hostSetFlag (f : Flag) (value : Bool) (s : State) : State := s.withP (s.p.set f value)

/-- What Execute returns (40_dispatch.md R94). -/
inductive ExecuteResult where
  /-- The budget is used up: normal termination (R84). -/
  | ok
  /-- Err(InvalidOpcode(byte, pc)) (60_exceptions.md R130). -/
  | err (byte : Byte) (pc : Word)
  /-- The model's own name for a loop that its step bound cut off; R94 says every Execute ends, so
  no Execute answers it (log 21). -/
  | unfinished
deriving DecidableEq, Repr

/-- The loop of Execute (R80), cut off after a number of steps. Every step consumes a cycle (R94), so
the budget bounds the number of steps (log 21). -/
def executeLoop : Nat → State → ExecuteResult × State
  | bound, s =>
    match s.run with
    | .idle => (.ok, s)
    | .faulted byte pc => (.err byte pc, s)
    | .dispatching =>
      match bound with
      | 0 => (.unfinished, s)
      | n + 1 =>
        match step s with
        | .next t => executeLoop n t
        | .fault _ => (.unfinished, s)
        | .refused _ => (.unfinished, s)

/-- Execute(b) (R80). In Faulted it makes no step and returns the same Err (60_exceptions.md R134). -/
def execute (b : Nat) (s : State) : ExecuteResult × State :=
  match s.run with
  | .faulted byte pc => (.err byte pc, s)
  | .idle => executeLoop b (s.startExecute b)
  | .dispatching => executeLoop b (s.startExecute b)

/-- The operations of the host interface after Construct (R153). -/
inductive HostOp where
  | reset
  | load (addr : Word) (v : Byte)
  | setA (v : Byte)
  | setX (v : Byte)
  | setY (v : Byte)
  | setSp (v : Byte)
  | setPc (v : Word)
  | setFlag (f : Flag) (value : Bool)
  | execute (b : Nat)
  | observe
deriving DecidableEq, Repr

/-- What a host operation hands back (R153). -/
inductive HostAnswer where
  /-- Nothing but its effect. -/
  | done
  /-- The result of Execute. -/
  | returned (r : ExecuteResult)
  /-- Every piece of state (10_state.md R36). -/
  | observed (s : State)
deriving DecidableEq, Repr

/-- The effect of one operation between Execute calls. -/
def HostOp.run : HostOp → State → HostAnswer × State
  | .reset, s => (.done, hostReset s)
  | .load addr v, s => (.done, hostLoad addr v s)
  | .setA v, s => (.done, hostSetA v s)
  | .setX v, s => (.done, hostSetX v s)
  | .setY v, s => (.done, hostSetY v s)
  | .setSp v, s => (.done, hostSetSp v s)
  | .setPc v, s => (.done, hostSetPc v s)
  | .setFlag f value, s => (.done, hostSetFlag f value s)
  | .execute b, s => (.returned (Sys2Proof.Machine.execute b s).1, (Sys2Proof.Machine.execute b s).2)
  | .observe, s => (.observed s, s)

/-- A host operation, refused (none) while an Execute is running (20_memory.md R55, 40_dispatch.md
R95; log 13). Safe. -/
def hostApply (op : HostOp) (s : State) : Option (HostAnswer × State) :=
  match s.run with
  | .dispatching => none
  | .idle => some (op.run s)
  | .faulted _ _ => some (op.run s)

/-- A list of host operations in order, the state after the last. -/
def hostSession : List HostOp → State → Option State
  | [], s => some s
  | op :: ops, s =>
    match hostApply op s with
    | none => none
    | some r => hostSession ops r.2

end Sys2Proof.Machine
end

