-- ==== Sys2Proof/WellFormed.lean ====
section
/-! DEFINITION. Well-formedness. Every operand byte may have any value (30_encoding.md R66) and the
operand types are exactly as wide as the operand fields (R60), so the only check there is on an
instruction is that its opcode's table entry has its length. A list of bytes is checked by
`wellFormedEncoding` (Decode.lean), which refuses unmapped opcodes and wrong lengths. -/

namespace Sys2Proof

/-- An instruction is well-formed when its own encoding is one whole instruction (R60, R66). -/
def Instr.wellFormed (i : Instr) : Bool := wellFormedEncoding (encode i)

end Sys2Proof
end

