-- ==== Sys2Proof/Safety.lean ====
section
/-! DEFINITION. What the statements mean by a sound state, a running state and a safe outcome. -/

namespace Sys2Proof.Machine

/-- The execute-loop state agrees with the budget, and a fault record names an unmapped opcode
(10_state.md R34, 60_exceptions.md R131). -/
def State.loopOk (s : State) : Bool :=
  match s.run with
  | .idle => s.budget == 0
  | .dispatching => decide (0 < s.budget)
  | .faulted byte _ => (lookupOpcode byte).isNone

/-- The invariant of the machine: memory in its canonical form and the loop state sound. -/
abbrev State.Inv (s : State) : Prop := s.mem.wf ∧ s.loopOk = true

/-- A Step may start: Dispatching with budget left (40_dispatch.md R81, R82). -/
abbrev State.Running (s : State) : Prop := s.run = .dispatching ∧ 0 < s.budget

/-- No earlier InvalidOpcode is recorded. -/
def State.notFaulted (s : State) : Bool :=
  match s.run with
  | .idle => true
  | .dispatching => true
  | .faulted _ _ => false

/-- The loop state after an instruction that leaves this budget (40_dispatch.md R82). -/
def runAfter (budget : Nat) : RunState := if budget = 0 then .idle else .dispatching

/-- Two states that agree on what a Step reads or writes besides A, Y and the flags: X, SP, PC, memory,
budget and run. -/
abbrev State.sameControl (s t : State) : Prop :=
  s.x = t.x ∧ s.sp = t.sp ∧ s.pc = t.pc ∧ s.mem = t.mem ∧ s.budget = t.budget ∧ s.run = t.run

/-- An outcome a safe run may have: a next state, or the fault of an opcode that is unmapped. -/
def SafeOutcome : Host.Outcome State Fault Refusal → Prop
  | .next _ => True
  | .fault (.invalidOpcode byte _) => lookupOpcode byte = none
  | .refused _ => False

end Sys2Proof.Machine
end

