-- ==== Sys2Proof/Certificates/Slice0/Obligations.lean ====
section
/-! DEFINITION. The statements for the provers. Where a docstring names a decision D<n> or a log
entry, that clause is a choice and no plain rule of the spec. -/

open Sys2Proof Sys2Proof.Machine

/-! ## Decoding -/

/-- A few words written out from 30_encoding.md R60, R63 decode to what they stand for. The opcodes A5,
B5 and EA are decisions D1 to D3 (log 1). -/
def Obligations.DecodeReadsWrittenOutWords : Prop :=
  decode [0b10101001#8, 0b00000001#8] = .ok (.ldaImm 0x01, []) ∧
  decode [0b10100101#8, 0b00010000#8] = .ok (.ldaZp 0x10, []) ∧
  decode [0b10110101#8, 0b11110000#8] = .ok (.ldaZpx 0xF0, []) ∧
  decode [0b00100000#8, 0b00110100#8, 0b00010010#8] = .ok (.jsr 0x1234, []) ∧
  decode [0b11101010#8] = .ok (.nop, [])

/-- Decoding gives an instruction exactly for the bytes that begin with its encoding: every operand
value survives, and every byte list has at most one meaning (R60, R62, R64). -/
def Obligations.DecodeExactlyInvertsEncode : Prop :=
  ∀ (bs : List Byte) (i : Instr) (rest : List Byte),
    decode bs = .ok (i, rest) ↔ bs = encode i ++ rest

/-- With enough bytes after it, an opcode is rejected by name exactly when it is not one of the five of
R63 (decision D5, log 4), whatever the operand bytes are (R65, R66); a mapped opcode gives an
instruction of that opcode and leaves the bytes beyond its length. -/
def Obligations.DecodeRejectsExactlyTheUnmapped : Prop :=
  ∀ (op b1 b2 : Byte) (rest : List Byte),
    (decode (op :: b1 :: b2 :: rest) = .error (.unmapped op) ↔
      op ∉ [0x20#8, 0xA5#8, 0xA9#8, 0xB5#8, 0xEA#8]) ∧
    (op ∈ [0x20#8, 0xA5#8, 0xA9#8, 0xB5#8, 0xEA#8] → ∃ i : Instr, i.opcode = op ∧
      decode (op :: b1 :: b2 :: rest) = .ok (i, (op :: b1 :: b2 :: rest).drop i.length))

/-- A byte list is a well-formed encoding exactly when it is the encoding of an instruction (R60, R65, R66). -/
def Obligations.WellFormedEncodingsAreEncodings : Prop :=
  ∀ bs : List Byte, wellFormedEncoding bs = true ↔ ∃ i : Instr, encode i = bs

/-- The opcode and operand bytes of the instruction decoded at PC are the bytes that the fetches of
R87 read one after the other, each at PC modulo 2^16 (R60, R62). -/
def Obligations.DecodedBytesAreTheFetchedBytes : Prop :=
  ∀ (s : State) (i : Instr) (rest : List Byte), s.decodeAtPc = .ok (i, rest) →
    s.fetch.1 = i.opcode ∧
    (∀ v, i = .ldaImm v → v = s.fetch.2.fetch.1) ∧
    (∀ z, i = .ldaZp z → z = s.fetch.2.fetch.1) ∧
    (∀ z, i = .ldaZpx z → z = s.fetch.2.fetch.1) ∧
    (∀ t, i = .jsr t → t = wordOfBytes s.fetch.2.fetch.2.fetch.1 s.fetch.2.fetch.1)

/-! ## Flags -/

/-- R28, with its two derived sentences: Z is set exactly for 0, N is bit 7, the two are never both 1,
and both are 0 from 0x01 to 0x7F. Every other flag and every other piece of state is kept. -/
def Obligations.SetZNFollowsTheResultByte : Prop :=
  ∀ (s : State) (v : Byte),
    s.setZN v = { s with p := { s.p with z := decide (v = 0), n := v.getLsbD 7 } } ∧
    ¬ ((s.setZN v).p.z = true ∧ (s.setZN v).p.n = true) ∧
    (1 ≤ v.toNat ∧ v.toNat ≤ 0x7F → (s.setZN v).p.z = false ∧ (s.setZN v).p.n = false)

/-- The packed bit positions of R30. That bit 7 is 0 is decision D17 (log 15). -/
def Obligations.PackedStatusBitPositions : Prop :=
  ∀ p : Flags, Flags.ofPacked p.packed = p ∧ p.packed.getLsbD 7 = false ∧
    ∀ f : Flag, p.packed.getLsbD f.bit = p.get f

/-! ## Shared operations -/

/-- The saturating deduction of R83 and its composition (R85): nothing but the budget changes. -/
def Obligations.ConsumeSaturatesAndComposes : Prop :=
  ∀ (s : State) (m n : Nat),
    s.consume n = { s with budget := s.budget - n } ∧
    (s.consume m).consume n = s.consume (m + n) ∧
    (s.budget ≤ n → (s.consume n).budget = 0)

/-- R87: a fetch reads the byte at PC, adds one to PC modulo 2^16 and consumes one cycle, and changes
nothing else; at 0xFFFF it reads M[0xFFFF] and leaves PC at 0x0000. -/
def Obligations.FetchReadsAndAdvances : Prop :=
  ∀ s : State,
    s.fetch = (s.memRead s.pc, { s with pc := s.pc + 1, budget := s.budget - 1 }) ∧
    (s.fetch.2.pc.toNat = (s.pc.toNat + 1) % 65536) ∧
    (s.pc = 0xFFFF → s.fetch.1 = s.memRead 0xFFFF ∧ s.fetch.2.pc = 0x0000)

/-- R42: a byte write sets the cell and changes no other cell, and no other piece of state. -/
def Obligations.MemWriteSetsOneCell : Prop :=
  ∀ (s : State) (addr : Word) (v : Byte),
    (s.memWrite addr v).memRead addr = v ∧
    (∀ other : Word, other ≠ addr → (s.memWrite addr v).memRead other = s.memRead other) ∧
    s.memWrite addr v = { s with mem := (s.memWrite addr v).mem }

/-- Two memories in canonical form that read the same at every address are equal: the 65536 bytes of
R32 have one representation. -/
def Obligations.CanonicalMemoryIsUnique : Prop :=
  ∀ m m' : Memory, m.wf → m'.wf → (∀ addr : Word, m.read addr.toNat = m'.read addr.toNat) → m = m'

/-- R44: the low byte at the first address, then the high byte at the second, two cycles, and nothing
else changes. With equal addresses the byte written last stays. -/
def Obligations.WriteWordStoresLittleEndian : Prop :=
  ∀ (s : State) (lo hi : Word) (value : Word),
    let t := s.writeWord lo hi value
    (lo ≠ hi → t.memRead lo = value.extractLsb' 0 8) ∧
    t.memRead hi = value.extractLsb' 8 8 ∧
    (lo ≠ hi → wordOfBytes (t.memRead hi) (t.memRead lo) = value) ∧
    (∀ addr : Word, addr ≠ lo → addr ≠ hi → t.memRead addr = s.memRead addr) ∧
    t = { s with mem := t.mem, budget := s.budget - 2 }

/-- R49, R110: a push stores the low byte at 0x0100 or'ed with SP and the high byte at the next slot,
both inside 0x0100 to 0x01FF, so that from SP = 0xFF the high byte lands at 0x0100 (decision D7, log 6);
SP goes up by two modulo 256 (decision D6, log 5), two cycles go, and nothing else changes. -/
def Obligations.PushWritesTwoSlotsOfTheStackPage : Prop :=
  ∀ (s : State) (value : Word),
    let t := s.pushWord value
    let lo := BitVec.ofNat 16 (0x0100 + s.sp.toNat)
    let hi := BitVec.ofNat 16 (0x0100 + (s.sp.toNat + 1) % 256)
    t.memRead lo = value.extractLsb' 0 8 ∧ t.memRead hi = value.extractLsb' 8 8 ∧
    (∀ addr : Word, addr ≠ lo → addr ≠ hi → t.memRead addr = s.memRead addr) ∧
    t.sp.toNat = (s.sp.toNat + 2) % 256 ∧
    t = { s with sp := t.sp, mem := t.mem, budget := s.budget - 2 }

/-- R88 to R91: each mode applied to the operand bytes at PC. Immediate is the fetched byte; zero page
reads M[zext16 z] for two cycles; zero page,X reads M[zext16 ((z + X) mod 256)] for three and keeps X;
absolute assembles two bytes, low first, for two cycles and reads nothing there. -/
def Obligations.AddressingModesResolveTheirOperands : Prop :=
  ∀ s : State,
    let b1 := s.memRead s.pc
    let b2 := s.memRead (s.pc + 1)
    resolveImmediate b1 s = (b1, { s with pc := s.pc + 1, budget := s.budget - 1 }) ∧
    resolveZeroPage b1 s =
      (s.memRead (b1.setWidth 16), { s with pc := s.pc + 1, budget := s.budget - 2 }) ∧
    resolveZeroPageX b1 s =
      (s.memRead (BitVec.ofNat 16 ((b1.toNat + s.x.toNat) % 256)),
        { s with pc := s.pc + 1, budget := s.budget - 3 }) ∧
    resolveAbsolute (wordOfBytes b2 b1) s =
      (BitVec.ofNat 16 (b2.toNat * 256 + b1.toNat), { s with pc := s.pc + 2, budget := s.budget - 2 })

/-! ## The instructions, from the state after the opcode fetch (R12) -/

/-- R100, R101, R102 after the opcode fetch: each load completes in every state, and its next state is
the old one with A, Z, N, PC and the budget as the rule says. -/
def Obligations.LoadsCompleteWithTheirResult : Prop :=
  ∀ s : State,
    let loaded := fun (v : Byte) (cost : Nat) =>
      { s with a := v, pc := s.pc + 1, p := { s.p with z := decide (v = 0), n := v.getLsbD 7 },
               budget := s.budget - cost }
    (∀ imm : Byte, exec (.ldaImm imm) s = .next (loaded imm 1)) ∧
    (∀ zp : Byte, exec (.ldaZp zp) s = .next (loaded (s.memRead (zp.setWidth 16)) 2)) ∧
    (∀ zp : Byte, exec (.ldaZpx zp) s = .next (loaded (s.memRead ((zp + s.x).setWidth 16)) 3))

/-- R110 after the opcode fetch: JSR completes in every state. The pushed word is PC + 1 there, which is
the address of the instruction's last byte, PC is the target, SP is raised by two (decision D6, log 5),
the push lies where `stackAddr` says (decision D7, log 6), five cycles go. -/
def Obligations.JsrCompletesWithItsResult : Prop :=
  ∀ (s : State) (target : Word), ∃ t : State, exec (.jsr target) s = .next t ∧
    t = { s with pc := target, sp := s.sp + 2, mem := t.mem, budget := s.budget - 5 } ∧
    t.memRead (stackAddr s.sp) = lowByte (s.pc + 1) ∧
    t.memRead (stackAddr (s.sp + 1)) = highByte (s.pc + 1) ∧
    ∀ addr : Word, addr ≠ stackAddr s.sp → addr ≠ stackAddr (s.sp + 1) → t.memRead addr = s.memRead addr

/-- R120 after the opcode fetch: NOP completes in every state and only a cycle goes (one internal cycle,
decision D4, log 3). -/
def Obligations.NopCompletesWithItsResult : Prop :=
  ∀ s : State, exec .nop s = .next { s with budget := s.budget - 1 }

/-- The frame of the three loads: X, Y, SP, the flags C, I, D, B and V, the loop state and every byte of
memory are kept (R29, R100 to R102). -/
def Obligations.LoadsFrame : Prop :=
  ∀ (i : Instr) (s t : State),
    (∃ v, i = .ldaImm v) ∨ (∃ z, i = .ldaZp z) ∨ (∃ z, i = .ldaZpx z) →
    exec i s = .next t →
    t.x = s.x ∧ t.y = s.y ∧ t.sp = s.sp ∧ t.p.c = s.p.c ∧ t.p.i = s.p.i ∧ t.p.d = s.p.d ∧
    t.p.b = s.p.b ∧ t.p.v = s.p.v ∧ t.run = s.run ∧ ∀ addr : Word, t.memRead addr = s.memRead addr

/-- The frame of JSR: A, X, Y, every flag and the loop state are kept, and every byte of memory outside
the two stack slots it computes; SP and PC are the registers it writes (R110). Where the second slot lies
at SP = 0xFF is decision D7 (log 6). -/
def Obligations.JsrFrame : Prop :=
  ∀ (target : Word) (s t : State), exec (.jsr target) s = .next t →
    t.a = s.a ∧ t.x = s.x ∧ t.y = s.y ∧ t.p = s.p ∧ t.run = s.run ∧
    ∀ lo hi : Word, stackAddr s.sp = lo → stackAddr (s.sp + 1) = hi →
      ∀ addr : Word, addr ≠ lo → addr ≠ hi → t.memRead addr = s.memRead addr

/-- The frame of NOP: every register, PC too, every flag, the loop state and every byte of memory are
kept (R120). -/
def Obligations.NopFrame : Prop :=
  ∀ s t : State, exec .nop s = .next t →
    t.a = s.a ∧ t.x = s.x ∧ t.y = s.y ∧ t.sp = s.sp ∧ t.pc = s.pc ∧ t.p = s.p ∧ t.run = s.run ∧
    ∀ addr : Word, t.memRead addr = s.memRead addr

/-- R29: an instruction writes only the flags of its documented set. JSR and NOP write none; a load
writes Z and N from the byte it put into A, and no other. -/
def Obligations.InstructionsWriteOnlyTheirDocumentedFlags : Prop :=
  ∀ (i : Instr) (s t : State), exec i s = .next t →
    (t.p.c = s.p.c ∧ t.p.i = s.p.i ∧ t.p.d = s.p.d ∧ t.p.b = s.p.b ∧ t.p.v = s.p.v) ∧
    (i = .nop ∨ (∃ target, i = .jsr target) → t.p = s.p) ∧
    (i ≠ .nop ∧ (∀ target, i ≠ .jsr target) → t.p.z = decide (t.a = 0) ∧ t.p.n = t.a.getLsbD 7)

/-- No instruction faults or is refused, in any state and with any operand (R135). -/
def Obligations.EveryInstructionCompletes : Prop :=
  ∀ (i : Instr) (s : State), ∃ t : State, exec i s = .next t

/-! ## One step of the machine -/

/-- A step runs the decoded instruction: it moves PC past the opcode and takes its cycle, runs exec of
the instruction there, and ends the loop if no budget is left (R82, R87). -/
def Obligations.StepRunsTheDecodedInstruction : Prop :=
  ∀ (s : State) (i : Instr) (rest : List Byte), s.Running → s.decodeAtPc = .ok (i, rest) →
    (∀ t : State, exec i { s with pc := s.pc + 1, budget := s.budget - 1 } = .next t →
      step s = .next (if t.budget = 0 then { t with run := .idle } else t)) ∧
    (∀ r, exec i { s with pc := s.pc + 1, budget := s.budget - 1 } = .fault r → step s = .fault r) ∧
    (∀ r, exec i { s with pc := s.pc + 1, budget := s.budget - 1 } = .refused r → step s = .refused r)

/-- R100 as a whole step: with A9 at PC the byte after it goes to A, Z and N follow it, PC moves by two,
two cycles go, and nothing else changes; with budget 1 it still loads. -/
def Obligations.LdaImmediateStep : Prop :=
  ∀ s : State, s.Running → s.memRead s.pc = 0xA9 →
    let v := s.memRead (s.pc + 1)
    step s = .next { s with a := v, pc := s.pc + 2, p := { s.p with z := decide (v = 0), n := v.getLsbD 7 },
                            budget := s.budget - 2, run := runAfter (s.budget - 2) }

/-- R101 as a whole step. The opcode A5 is decision D1 (log 1). -/
def Obligations.LdaZeroPageStep : Prop :=
  ∀ s : State, s.Running → s.memRead s.pc = 0xA5 →
    let v := s.memRead (BitVec.ofNat 16 (s.memRead (s.pc + 1)).toNat)
    step s = .next { s with a := v, pc := s.pc + 2, p := { s.p with z := decide (v = 0), n := v.getLsbD 7 },
                            budget := s.budget - 3, run := runAfter (s.budget - 3) }

/-- R102 as a whole step: the index addition wraps inside page 0. The opcode B5 is decision D2 (log 1). -/
def Obligations.LdaZeroPageXStep : Prop :=
  ∀ s : State, s.Running → s.memRead s.pc = 0xB5 →
    let v := s.memRead (BitVec.ofNat 16 (((s.memRead (s.pc + 1)).toNat + s.x.toNat) % 256))
    step s = .next { s with a := v, pc := s.pc + 2, p := { s.p with z := decide (v = 0), n := v.getLsbD 7 },
                            budget := s.budget - 4, run := runAfter (s.budget - 4) }

/-- R110 as a whole step: the target is the operand word as it stood before the push (R53), the pushed
word is the address of the JSR opcode plus two, read back little-endian at the SP of before, six cycles
go. SP + 2 is decision D6 (log 5) and the slots' wrap decision D7 (log 6). -/
def Obligations.JsrStep : Prop :=
  ∀ s : State, s.Running → s.memRead s.pc = 0x20 → ∃ t : State, step s = .next t ∧
    t = { s with pc := wordOfBytes (s.memRead (s.pc + 2)) (s.memRead (s.pc + 1)), sp := s.sp + 2,
                 mem := t.mem, budget := s.budget - 6, run := runAfter (s.budget - 6) } ∧
    wordOfBytes (t.memRead (0x0100 ||| (s.sp + 1).setWidth 16)) (t.memRead (0x0100 ||| s.sp.setWidth 16))
      = s.pc + 2 ∧
    ∀ addr : Word, addr ≠ 0x0100 ||| s.sp.setWidth 16 → addr ≠ 0x0100 ||| (s.sp + 1).setWidth 16 →
      t.memRead addr = s.memRead addr

/-- R120 as a whole step. The opcode EA and the two cycles are decisions D3 and D4 (log 1, log 3). -/
def Obligations.NopStep : Prop :=
  ∀ s : State, s.Running → s.memRead s.pc = 0xEA →
    step s = .next { s with pc := s.pc + 1, budget := s.budget - 2, run := runAfter (s.budget - 2) }

/-- R131 to R133: an unmapped byte at PC is recorded with its address, after its fetch moved PC and took
a cycle, and nothing else changes. The order of fetch and lookup is decision D9 (log 8), the five mapped
bytes are decision D5 (log 4). -/
def Obligations.UnmappedOpcodeStepTakesInvalidOpcode : Prop :=
  ∀ s : State, s.Running → s.memRead s.pc ∉ [0x20#8, 0xA5#8, 0xA9#8, 0xB5#8, 0xEA#8] →
    step s = .next { s with pc := s.pc + 1, budget := s.budget - 1,
                            run := .faulted (s.memRead s.pc) s.pc }

/-- R144: Idle waits and all state survives; R134: Faulted makes no step and reports its record again
(decision D10, log 9 and log 10). -/
def Obligations.IdleWaitsAndFaultedStops : Prop :=
  ∀ s : State,
    (s.run = .idle → step s = .next s) ∧
    (∀ byte pc, s.run = .faulted byte pc → step s = .fault (.invalidOpcode byte pc))

/-- R138: the budget is tested first, so without budget no step fetches, moves PC or raises
InvalidOpcode. What becomes of Dispatching without budget, which no run reaches, is log 20. -/
def Obligations.NoBudgetNoFetch : Prop :=
  ∀ s : State, s.budget = 0 → s.notFaulted = true → step s = .next { s with run := .idle }

/-- What moves PC (R25) in a running step: an instruction other than JSR leaves PC at the byte after it,
JSR at its target, an unmapped opcode at the byte after it (decision D9, log 8; its entry is a next state
of the model). SP changes by JSR only, by two (decision D6, log 5), and memory by JSR only. -/
def Obligations.StepMovesPcByLengthOrToTarget : Prop :=
  ∀ s t : State, s.Running → step s = .next t →
    (∀ (target : Word) (rest : List Byte), s.decodeAtPc = .ok (.jsr target, rest) →
      t.pc = target ∧ t.sp = s.sp + 2) ∧
    (∀ (i : Instr) (rest : List Byte), s.decodeAtPc = .ok (i, rest) → (∀ target, i ≠ .jsr target) →
      t.pc = s.pc + BitVec.ofNat 16 i.length ∧ t.sp = s.sp ∧ t.mem = s.mem) ∧
    (∀ e : DecodeError, s.decodeAtPc = .error e → t.pc = s.pc + 1 ∧ t.sp = s.sp ∧ t.mem = s.mem)

/-- The cycles a step takes are those of the Instruction Table, saturating at zero, and the loop goes on
exactly while budget is left (R83, R85, R93; NOP's cost is decision D4, log 3). -/
def Obligations.StepCostsTheTableCycles : Prop :=
  ∀ (s : State) (i : Instr) (rest : List Byte), s.Running → s.decodeAtPc = .ok (i, rest) →
    2 ≤ i.cycles ∧ ∃ t : State, step s = .next t ∧ t.budget = s.budget - i.cycles ∧
      (t.run = .dispatching ↔ i.cycles < s.budget) ∧ (t.run = .idle ↔ s.budget ≤ i.cycles)

/-- No step writes X, Y or the flags C, I, D, B, V (R22, R23, R27). -/
def Obligations.StepNeverWritesXYOrTheOtherFlags : Prop :=
  ∀ s t : State, step s = .next t →
    t.x = s.x ∧ t.y = s.y ∧ t.p.c = s.p.c ∧ t.p.i = s.p.i ∧ t.p.d = s.p.d ∧ t.p.b = s.p.b ∧ t.p.v = s.p.v

/-- No step writes memory outside the stack page (R48, R49), whatever instruction it runs. That a push
at SP = 0xFF stays in it is decision D7 (log 6). -/
def Obligations.StepWritesOnlyTheStackPage : Prop :=
  ∀ (s t : State) (addr : Word), step s = .next t → addr.toNat < 0x0100 ∨ 0x01FF < addr.toNat →
    t.memRead addr = s.memRead addr

/-- No step makes Z and N both 1 (R28, W1). A host may set both, so this is a premise on the state. -/
def Obligations.StepKeepsZeroAndNegativeExclusive : Prop :=
  ∀ s t : State, ¬ (s.p.z = true ∧ s.p.n = true) → step s = .next t → ¬ (t.p.z = true ∧ t.p.n = true)

/-- The invariant holds after reset. -/
def Obligations.ResetMeetsTheInvariant : Prop := State.reset.Inv

/-- Every step keeps the invariant: memory in canonical form inside 65536 bytes (R32), Idle with no
budget, Dispatching with budget, and a fault record that names an unmapped opcode (R34, R81, R131). -/
def Obligations.StepKeepsTheInvariant : Prop :=
  ∀ s t : State, s.Inv → step s = .next t → t.Inv

/-- InvalidOpcode is the only failure (R130, R135): a step is never refused, stops only in Faulted, and
the record it stops with names an unmapped opcode. Two clauses are choices of the model: that a step in
Faulted is the fault is decision D10 (DESIGN CHOICE, log 9), and that taking InvalidOpcode is a next state
and not yet the fault is log 8 (DEDUCED, with decision D9). That a step in Idle or in Dispatching without
budget answers a next state is log 10 (DEDUCED) and log 20 (DESIGN CHOICE). -/
def Obligations.StepFailsOnlyWhenFaulted : Prop :=
  ∀ s : State, s.Inv → SafeOutcome (step s) ∧ (s.notFaulted = true ↔ ∃ t : State, step s = .next t)

/-! ## Execute and the host -/

/-- Execute ends in one of the two ways of R94: Ok with budget 0 and Idle (R84), or Err with the record
that run then holds. From Faulted it is Err at once, with the record of before: decision D10 (DESIGN CHOICE,
log 9). That a failing run ends in Faulted with this record is decision D9 (DEDUCED, log 8). It is never
cut off by the model's bound (log 21). -/
def Obligations.ExecuteEndsIdleOrFaulted : Prop :=
  ∀ (b : Nat) (s : State),
    (∃ t : State, execute b s = (.ok, t) ∧ t.run = .idle ∧ t.budget = 0) ∨
    (∃ (t : State) (byte : Byte) (pc : Word),
      execute b s = (.err byte pc, t) ∧ t.run = .faulted byte pc)

/-- Execute is its first step and then Execute of the budget that step leaves (R80, R85), so instruction
k starts exactly when the costs before it are less than the budget. -/
def Obligations.ExecuteIsFirstStepThenTheRest : Prop :=
  ∀ (b : Nat) (s t : State), s.notFaulted = true → 0 < b → step (s.startExecute b) = .next t →
    (t.run = .dispatching → execute b s = execute t.budget t) ∧
    (t.run = .idle → execute b s = (.ok, t)) ∧
    (∀ byte pc, t.run = .faulted byte pc → execute b s = (.err byte pc, t))

/-- Execute(1) runs exactly one Step (R85, R143), for every instruction costs at least two cycles
(decision D4 for NOP, log 3). -/
def Obligations.ExecuteOneRunsOneInstruction : Prop :=
  ∀ s : State, s.notFaulted = true → ∃ t : State, step (s.startExecute 1) = .next t ∧
    (execute 1 s).2 = t ∧ t.run ≠ .dispatching

/-- Execute(0) fetches nothing and changes no register, flag or memory cell (R84). -/
def Obligations.ExecuteZeroFetchesNothing : Prop :=
  ∀ s : State, s.notFaulted = true → execute 0 s = (.ok, { s with budget := 0, run := .idle })

/-- In Faulted, Execute makes no step and returns the same Err (R80, R134, decision D10, log 9). -/
def Obligations.ExecuteInFaultedReturnsTheSameErr : Prop :=
  ∀ (b : Nat) (s : State) (byte : Byte) (pc : Word), s.run = .faulted byte pc →
    execute b s = (.err byte pc, s)

/-- Memory that holds only the filler runs NOPs: Execute(b) runs ceil(b / 2) of them (R121; the filler,
the opcode and the cost are decisions D3 and D4, log 2, log 1 and log 3). -/
def Obligations.FillerMemoryRunsNops : Prop :=
  ∀ (b : Nat) (s : State), s.notFaulted = true → (∀ addr : Word, s.memRead addr = 0xEA) →
    execute b s =
      (.ok, { s with pc := s.pc + BitVec.ofNat 16 ((b + 1) / 2), budget := 0, run := .idle })

/-- A, Y and the flags reach nothing else: two states that agree on X, SP, PC, memory, budget and run
give the same result of Execute and agree on these again after it (R21, R23, R27). -/
def Obligations.ExecuteDoesNotReadAYOrFlags : Prop :=
  ∀ (b : Nat) (s t : State), s.sameControl t →
    (execute b s).1 = (execute b t).1 ∧ (execute b s).2.sameControl (execute b t).2

/-- Execute never writes X, Y, the flags C, I, D, B, V, or memory outside the stack page (R22, R23, R27,
R48), however many instructions it runs. That a push at SP = 0xFF stays in the stack page is decision D7
(log 6). -/
def Obligations.ExecuteFrame : Prop :=
  ∀ (b : Nat) (s : State),
    let t := (execute b s).2
    t.x = s.x ∧ t.y = s.y ∧ t.p.c = s.p.c ∧ t.p.i = s.p.i ∧ t.p.d = s.p.d ∧ t.p.b = s.p.b ∧
    t.p.v = s.p.v ∧
    ∀ addr : Word, addr.toNat < 0x0100 ∨ 0x01FF < addr.toNat → t.memRead addr = s.memRead addr

/-- R152: Reset is idempotent, and after it every memory cell is the no-op filler byte. -/
def Obligations.ResetIsIdempotent : Prop :=
  ∀ s : State, hostReset (hostReset s) = hostReset s ∧
    ∀ addr : Word, (hostReset s).memRead addr = filler

/-- R35, R150, R151: Construct and Reset from any state give the one reset state, with these values. The
filler 0xEA is decision D3 (log 2); budget 0 and Idle are decision D18 (log 16). -/
def Obligations.ConstructAndResetGiveTheResetState : Prop :=
  construct = State.reset ∧
  ∀ s : State, hostReset s = State.reset ∧
    State.reset.a = 0x00 ∧ State.reset.x = 0x00 ∧ State.reset.y = 0x00 ∧ State.reset.sp = 0x00 ∧
    State.reset.pc = 0xFFFC ∧ State.reset.p = ⟨false, false, false, false, false, false, false⟩ ∧
    (∀ addr : Word, State.reset.memRead addr = 0xEA) ∧
    State.reset.budget = 0 ∧ State.reset.run = .idle

/-- Load and Set registers change the one piece of state they name (R153, decision D14, log 13). Here of
the functions that write; HostOperationsHaveTheirEffect says it of the operations the host applies. -/
def Obligations.HostWritesChangeWhatTheyName : Prop :=
  ∀ (s : State) (v : Byte) (w : Word) (f g : Flag) (value : Bool),
    hostSetA v s = { s with a := v } ∧ hostSetX v s = { s with x := v } ∧
    hostSetY v s = { s with y := v } ∧ hostSetSp v s = { s with sp := v } ∧
    hostSetPc w s = { s with pc := w } ∧
    hostSetFlag f value s = { s with p := (hostSetFlag f value s).p } ∧
    (hostSetFlag f value s).p.get g = (if g = f then value else s.p.get g) ∧
    hostLoad w v s = { s with mem := (hostLoad w v s).mem } ∧
    (hostLoad w v s).memRead w = v ∧
    ∀ addr : Word, addr ≠ w → (hostLoad w v s).memRead addr = s.memRead addr

/-- While an Execute runs every host operation is refused (R55, R95), and between calls none is
(R153; log 13). -/
def Obligations.HostActsOnlyBetweenExecutes : Prop :=
  ∀ (op : HostOp) (s : State), hostApply op s = none ↔ s.run = .dispatching

/-- Any sequence of host operations after Construct, with any budgets and any bytes, is accepted, and
ends between Execute calls in a state that meets the invariant (R34, R55, R94, R153). That the host may
write registers and flags is decision D14 (DESIGN CHOICE, log 13). -/
def Obligations.HostSessionsKeepTheInvariant : Prop :=
  ∀ ops : List HostOp, ∃ s : State, hostSession ops construct = some s ∧ s.Inv ∧ s.run ≠ .dispatching

/-- Faulted lasts until Reset (R134): no sequence of the other host operations leaves it, and Reset does
(decisions D10, D18, log 9). -/
def Obligations.FaultedLastsUntilReset : Prop :=
  ∀ (ops : List HostOp) (s : State) (byte : Byte) (pc : Word), s.run = .faulted byte pc →
    (∀ op ∈ ops, op ≠ .reset) →
    (∃ t : State, hostSession ops s = some t ∧ t.run = .faulted byte pc) ∧
    hostSession (ops ++ [.reset]) s = some State.reset

/-- Each operation the host applies between Execute calls has its effect and hands back its answer (R153):
Reset the reset state, Load one cell, Set registers the one piece named, Execute(b) its result and its
state, Observe every piece of state with nothing changed (R36). Set registers is decision D14 (DESIGN
CHOICE, log 13); what Reset leaves in budget and run is decision D18 (log 16); the form of the answers is
log 26. -/
def Obligations.HostOperationsHaveTheirEffect : Prop :=
  ∀ s : State, s.run ≠ .dispatching →
    hostApply .reset s = some (.done, State.reset) ∧
    (∀ v, hostApply (.setA v) s = some (.done, { s with a := v })) ∧
    (∀ v, hostApply (.setX v) s = some (.done, { s with x := v })) ∧
    (∀ v, hostApply (.setY v) s = some (.done, { s with y := v })) ∧
    (∀ v, hostApply (.setSp v) s = some (.done, { s with sp := v })) ∧
    (∀ v, hostApply (.setPc v) s = some (.done, { s with pc := v })) ∧
    (∀ f value, ∃ p : Flags, hostApply (.setFlag f value) s = some (.done, { s with p := p }) ∧
      ∀ g, p.get g = if g = f then value else s.p.get g) ∧
    (∀ addr v, ∃ t : State, hostApply (.load addr v) s = some (.done, t) ∧
      t = { s with mem := t.mem } ∧ t.memRead addr = v ∧
      ∀ other : Word, other ≠ addr → t.memRead other = s.memRead other) ∧
    (∀ b, hostApply (.execute b) s = some (.returned (execute b s).1, (execute b s).2)) ∧
    hostApply .observe s = some (.observed s, s)

/-- Every operation the host applies between Execute calls, from any state that meets the invariant, is
accepted, keeps the invariant and is between Execute calls again (R34, R55, R94, R153). That the host may
write registers and flags is decision D14 (DESIGN CHOICE, log 13). -/
def Obligations.HostOperationsKeepTheInvariant : Prop :=
  ∀ (op : HostOp) (s : State), s.Inv → s.run ≠ .dispatching →
    ∃ r : HostAnswer × State, hostApply op s = some r ∧ r.2.Inv ∧ r.2.run ≠ .dispatching

/-- Every step keeps two states alike in X, SP, PC, memory, budget and run: A, Y and the flags reach none
of these (R21, R23, R27), and when the one steps so does the other. -/
def Obligations.StepDoesNotReadAYOrFlags : Prop :=
  ∀ s t s' : State, s.sameControl t → step s = .next s' →
    ∃ t' : State, step t = .next t' ∧ s'.sameControl t'
end

