-- ==== Sys2Proof/Laws/Decode.lean ====
section
/-! SUPPORT. The byte-order helpers undo each other, and what the table lookup answers. -/

namespace Sys2Proof

@[simp] theorem lowByte_wordOfBytes (hi lo : Byte) : lowByte (wordOfBytes hi lo) = lo := by
  unfold lowByte wordOfBytes
  ext i hi'
  simp only [BitVec.getElem_extractLsb', Nat.zero_add, BitVec.getLsbD_append, hi',
    BitVec.getLsbD_eq_getElem]
  simp

@[simp] theorem highByte_wordOfBytes (hi lo : Byte) : highByte (wordOfBytes hi lo) = hi := by
  unfold highByte wordOfBytes
  ext i hi'
  simp only [BitVec.getElem_extractLsb', BitVec.getLsbD_append]
  simp [hi']

@[simp] theorem wordOfBytes_highByte_lowByte (w : Word) : wordOfBytes (highByte w) (lowByte w) = w := by
  unfold highByte lowByte wordOfBytes
  apply BitVec.eq_of_getLsbD_eq
  intro i hi
  rw [BitVec.getLsbD_append]
  by_cases h : i < 8
  · simp [h]
  · have h' : i - 8 < 8 := by omega
    simp [h, h', show 8 + (i - 8) = i by omega]

theorem lookupOpcode_opcode (i : Instr) :
    ∃ e, lookupOpcode i.opcode = some e ∧ e.mode = i.mode ∧ e.cycles = i.cycles := by
  cases i <;> exact ⟨_, rfl, rfl, rfl⟩

/-- The five mapped opcode bytes, and no other (R65). -/
theorem lookupOpcode_eq_none {op : Byte} :
    lookupOpcode op = none ↔ op ∉ [opJsrAbs, opLdaZp, opLdaImm, opLdaZpx, opNop] := by
  simp only [lookupOpcode, List.find?_eq_none, instructionTable, List.mem_cons, List.not_mem_nil,
    or_false, not_or, forall_eq_or_imp, forall_eq, beq_iff_eq]
  grind

theorem encode_head (i : Instr) : (encode i).head? = some i.opcode := by cases i <;> rfl

end Sys2Proof
end

