-- ==== Sys2Proof/Laws/State.lean ====
section
/-! SUPPORT. One lemma per field per update of State, and the same for the operations that write
one or two fields, so that no later proof unfolds a record update. -/

namespace Sys2Proof.Machine

@[simp] theorem State.withA_a (s : State) (v : Byte) : (s.withA v).a = v := rfl
@[simp] theorem State.withA_x (s : State) (v : Byte) : (s.withA v).x = s.x := rfl
@[simp] theorem State.withA_y (s : State) (v : Byte) : (s.withA v).y = s.y := rfl
@[simp] theorem State.withA_sp (s : State) (v : Byte) : (s.withA v).sp = s.sp := rfl
@[simp] theorem State.withA_pc (s : State) (v : Byte) : (s.withA v).pc = s.pc := rfl
@[simp] theorem State.withA_p (s : State) (v : Byte) : (s.withA v).p = s.p := rfl
@[simp] theorem State.withA_mem (s : State) (v : Byte) : (s.withA v).mem = s.mem := rfl
@[simp] theorem State.withA_budget (s : State) (v : Byte) : (s.withA v).budget = s.budget := rfl
@[simp] theorem State.withA_run (s : State) (v : Byte) : (s.withA v).run = s.run := rfl

@[simp] theorem State.withX_a (s : State) (v : Byte) : (s.withX v).a = s.a := rfl
@[simp] theorem State.withX_x (s : State) (v : Byte) : (s.withX v).x = v := rfl
@[simp] theorem State.withX_y (s : State) (v : Byte) : (s.withX v).y = s.y := rfl
@[simp] theorem State.withX_sp (s : State) (v : Byte) : (s.withX v).sp = s.sp := rfl
@[simp] theorem State.withX_pc (s : State) (v : Byte) : (s.withX v).pc = s.pc := rfl
@[simp] theorem State.withX_p (s : State) (v : Byte) : (s.withX v).p = s.p := rfl
@[simp] theorem State.withX_mem (s : State) (v : Byte) : (s.withX v).mem = s.mem := rfl
@[simp] theorem State.withX_budget (s : State) (v : Byte) : (s.withX v).budget = s.budget := rfl
@[simp] theorem State.withX_run (s : State) (v : Byte) : (s.withX v).run = s.run := rfl

@[simp] theorem State.withY_a (s : State) (v : Byte) : (s.withY v).a = s.a := rfl
@[simp] theorem State.withY_x (s : State) (v : Byte) : (s.withY v).x = s.x := rfl
@[simp] theorem State.withY_y (s : State) (v : Byte) : (s.withY v).y = v := rfl
@[simp] theorem State.withY_sp (s : State) (v : Byte) : (s.withY v).sp = s.sp := rfl
@[simp] theorem State.withY_pc (s : State) (v : Byte) : (s.withY v).pc = s.pc := rfl
@[simp] theorem State.withY_p (s : State) (v : Byte) : (s.withY v).p = s.p := rfl
@[simp] theorem State.withY_mem (s : State) (v : Byte) : (s.withY v).mem = s.mem := rfl
@[simp] theorem State.withY_budget (s : State) (v : Byte) : (s.withY v).budget = s.budget := rfl
@[simp] theorem State.withY_run (s : State) (v : Byte) : (s.withY v).run = s.run := rfl

@[simp] theorem State.withSp_a (s : State) (v : Byte) : (s.withSp v).a = s.a := rfl
@[simp] theorem State.withSp_x (s : State) (v : Byte) : (s.withSp v).x = s.x := rfl
@[simp] theorem State.withSp_y (s : State) (v : Byte) : (s.withSp v).y = s.y := rfl
@[simp] theorem State.withSp_sp (s : State) (v : Byte) : (s.withSp v).sp = v := rfl
@[simp] theorem State.withSp_pc (s : State) (v : Byte) : (s.withSp v).pc = s.pc := rfl
@[simp] theorem State.withSp_p (s : State) (v : Byte) : (s.withSp v).p = s.p := rfl
@[simp] theorem State.withSp_mem (s : State) (v : Byte) : (s.withSp v).mem = s.mem := rfl
@[simp] theorem State.withSp_budget (s : State) (v : Byte) : (s.withSp v).budget = s.budget := rfl
@[simp] theorem State.withSp_run (s : State) (v : Byte) : (s.withSp v).run = s.run := rfl

@[simp] theorem State.withPc_a (s : State) (v : Word) : (s.withPc v).a = s.a := rfl
@[simp] theorem State.withPc_x (s : State) (v : Word) : (s.withPc v).x = s.x := rfl
@[simp] theorem State.withPc_y (s : State) (v : Word) : (s.withPc v).y = s.y := rfl
@[simp] theorem State.withPc_sp (s : State) (v : Word) : (s.withPc v).sp = s.sp := rfl
@[simp] theorem State.withPc_pc (s : State) (v : Word) : (s.withPc v).pc = v := rfl
@[simp] theorem State.withPc_p (s : State) (v : Word) : (s.withPc v).p = s.p := rfl
@[simp] theorem State.withPc_mem (s : State) (v : Word) : (s.withPc v).mem = s.mem := rfl
@[simp] theorem State.withPc_budget (s : State) (v : Word) : (s.withPc v).budget = s.budget := rfl
@[simp] theorem State.withPc_run (s : State) (v : Word) : (s.withPc v).run = s.run := rfl

@[simp] theorem State.withP_a (s : State) (v : Flags) : (s.withP v).a = s.a := rfl
@[simp] theorem State.withP_x (s : State) (v : Flags) : (s.withP v).x = s.x := rfl
@[simp] theorem State.withP_y (s : State) (v : Flags) : (s.withP v).y = s.y := rfl
@[simp] theorem State.withP_sp (s : State) (v : Flags) : (s.withP v).sp = s.sp := rfl
@[simp] theorem State.withP_pc (s : State) (v : Flags) : (s.withP v).pc = s.pc := rfl
@[simp] theorem State.withP_p (s : State) (v : Flags) : (s.withP v).p = v := rfl
@[simp] theorem State.withP_mem (s : State) (v : Flags) : (s.withP v).mem = s.mem := rfl
@[simp] theorem State.withP_budget (s : State) (v : Flags) : (s.withP v).budget = s.budget := rfl
@[simp] theorem State.withP_run (s : State) (v : Flags) : (s.withP v).run = s.run := rfl

@[simp] theorem State.withMem_a (s : State) (v : Memory) : (s.withMem v).a = s.a := rfl
@[simp] theorem State.withMem_x (s : State) (v : Memory) : (s.withMem v).x = s.x := rfl
@[simp] theorem State.withMem_y (s : State) (v : Memory) : (s.withMem v).y = s.y := rfl
@[simp] theorem State.withMem_sp (s : State) (v : Memory) : (s.withMem v).sp = s.sp := rfl
@[simp] theorem State.withMem_pc (s : State) (v : Memory) : (s.withMem v).pc = s.pc := rfl
@[simp] theorem State.withMem_p (s : State) (v : Memory) : (s.withMem v).p = s.p := rfl
@[simp] theorem State.withMem_mem (s : State) (v : Memory) : (s.withMem v).mem = v := rfl
@[simp] theorem State.withMem_budget (s : State) (v : Memory) : (s.withMem v).budget = s.budget := rfl
@[simp] theorem State.withMem_run (s : State) (v : Memory) : (s.withMem v).run = s.run := rfl

@[simp] theorem State.withBudget_a (s : State) (v : Nat) : (s.withBudget v).a = s.a := rfl
@[simp] theorem State.withBudget_x (s : State) (v : Nat) : (s.withBudget v).x = s.x := rfl
@[simp] theorem State.withBudget_y (s : State) (v : Nat) : (s.withBudget v).y = s.y := rfl
@[simp] theorem State.withBudget_sp (s : State) (v : Nat) : (s.withBudget v).sp = s.sp := rfl
@[simp] theorem State.withBudget_pc (s : State) (v : Nat) : (s.withBudget v).pc = s.pc := rfl
@[simp] theorem State.withBudget_p (s : State) (v : Nat) : (s.withBudget v).p = s.p := rfl
@[simp] theorem State.withBudget_mem (s : State) (v : Nat) : (s.withBudget v).mem = s.mem := rfl
@[simp] theorem State.withBudget_budget (s : State) (v : Nat) : (s.withBudget v).budget = v := rfl
@[simp] theorem State.withBudget_run (s : State) (v : Nat) : (s.withBudget v).run = s.run := rfl

@[simp] theorem State.withRun_a (s : State) (v : RunState) : (s.withRun v).a = s.a := rfl
@[simp] theorem State.withRun_x (s : State) (v : RunState) : (s.withRun v).x = s.x := rfl
@[simp] theorem State.withRun_y (s : State) (v : RunState) : (s.withRun v).y = s.y := rfl
@[simp] theorem State.withRun_sp (s : State) (v : RunState) : (s.withRun v).sp = s.sp := rfl
@[simp] theorem State.withRun_pc (s : State) (v : RunState) : (s.withRun v).pc = s.pc := rfl
@[simp] theorem State.withRun_p (s : State) (v : RunState) : (s.withRun v).p = s.p := rfl
@[simp] theorem State.withRun_mem (s : State) (v : RunState) : (s.withRun v).mem = s.mem := rfl
@[simp] theorem State.withRun_budget (s : State) (v : RunState) : (s.withRun v).budget = s.budget := rfl
@[simp] theorem State.withRun_run (s : State) (v : RunState) : (s.withRun v).run = v := rfl

@[simp] theorem State.memWrite_a (s : State) (addr : Word) (v : Byte) : (s.memWrite addr v).a = s.a := rfl
@[simp] theorem State.memWrite_x (s : State) (addr : Word) (v : Byte) : (s.memWrite addr v).x = s.x := rfl
@[simp] theorem State.memWrite_y (s : State) (addr : Word) (v : Byte) : (s.memWrite addr v).y = s.y := rfl
@[simp] theorem State.memWrite_sp (s : State) (addr : Word) (v : Byte) : (s.memWrite addr v).sp = s.sp := rfl
@[simp] theorem State.memWrite_pc (s : State) (addr : Word) (v : Byte) : (s.memWrite addr v).pc = s.pc := rfl
@[simp] theorem State.memWrite_p (s : State) (addr : Word) (v : Byte) : (s.memWrite addr v).p = s.p := rfl
@[simp] theorem State.memWrite_mem (s : State) (addr : Word) (v : Byte) : (s.memWrite addr v).mem = s.mem.write addr.toNat v := rfl
@[simp] theorem State.memWrite_budget (s : State) (addr : Word) (v : Byte) : (s.memWrite addr v).budget = s.budget := rfl
@[simp] theorem State.memWrite_run (s : State) (addr : Word) (v : Byte) : (s.memWrite addr v).run = s.run := rfl

@[simp] theorem State.consume_a (s : State) (n : Nat) : (s.consume n).a = s.a := rfl
@[simp] theorem State.consume_x (s : State) (n : Nat) : (s.consume n).x = s.x := rfl
@[simp] theorem State.consume_y (s : State) (n : Nat) : (s.consume n).y = s.y := rfl
@[simp] theorem State.consume_sp (s : State) (n : Nat) : (s.consume n).sp = s.sp := rfl
@[simp] theorem State.consume_pc (s : State) (n : Nat) : (s.consume n).pc = s.pc := rfl
@[simp] theorem State.consume_p (s : State) (n : Nat) : (s.consume n).p = s.p := rfl
@[simp] theorem State.consume_mem (s : State) (n : Nat) : (s.consume n).mem = s.mem := rfl
@[simp] theorem State.consume_run (s : State) (n : Nat) : (s.consume n).run = s.run := rfl

@[simp] theorem State.consume_budget (s : State) (n : Nat) : (s.consume n).budget = s.budget - n := by
  simp only [State.consume, State.withBudget_budget]
  split <;> omega

@[simp] theorem State.advance_a (s : State) : (s.advance).a = s.a := rfl
@[simp] theorem State.advance_x (s : State) : (s.advance).x = s.x := rfl
@[simp] theorem State.advance_y (s : State) : (s.advance).y = s.y := rfl
@[simp] theorem State.advance_sp (s : State) : (s.advance).sp = s.sp := rfl
@[simp] theorem State.advance_pc (s : State) : (s.advance).pc = s.pc + 1 := rfl
@[simp] theorem State.advance_p (s : State) : (s.advance).p = s.p := rfl
@[simp] theorem State.advance_mem (s : State) : (s.advance).mem = s.mem := rfl
@[simp] theorem State.advance_run (s : State) : (s.advance).run = s.run := rfl

@[simp] theorem State.advance_budget (s : State) : s.advance.budget = s.budget - 1 := by
  simp [State.advance, fetchCycles]

@[simp] theorem State.setZN_a (s : State) (v : Byte) : (s.setZN v).a = s.a := rfl
@[simp] theorem State.setZN_x (s : State) (v : Byte) : (s.setZN v).x = s.x := rfl
@[simp] theorem State.setZN_y (s : State) (v : Byte) : (s.setZN v).y = s.y := rfl
@[simp] theorem State.setZN_sp (s : State) (v : Byte) : (s.setZN v).sp = s.sp := rfl
@[simp] theorem State.setZN_pc (s : State) (v : Byte) : (s.setZN v).pc = s.pc := rfl
@[simp] theorem State.setZN_p (s : State) (v : Byte) : (s.setZN v).p = s.p.setZN v := rfl
@[simp] theorem State.setZN_mem (s : State) (v : Byte) : (s.setZN v).mem = s.mem := rfl
@[simp] theorem State.setZN_budget (s : State) (v : Byte) : (s.setZN v).budget = s.budget := rfl
@[simp] theorem State.setZN_run (s : State) (v : Byte) : (s.setZN v).run = s.run := rfl

@[simp] theorem State.takeInvalidOpcode_a (s : State) (byte : Byte) (pc : Word) : (s.takeInvalidOpcode byte pc).a = s.a := rfl
@[simp] theorem State.takeInvalidOpcode_x (s : State) (byte : Byte) (pc : Word) : (s.takeInvalidOpcode byte pc).x = s.x := rfl
@[simp] theorem State.takeInvalidOpcode_y (s : State) (byte : Byte) (pc : Word) : (s.takeInvalidOpcode byte pc).y = s.y := rfl
@[simp] theorem State.takeInvalidOpcode_sp (s : State) (byte : Byte) (pc : Word) : (s.takeInvalidOpcode byte pc).sp = s.sp := rfl
@[simp] theorem State.takeInvalidOpcode_pc (s : State) (byte : Byte) (pc : Word) : (s.takeInvalidOpcode byte pc).pc = s.pc := rfl
@[simp] theorem State.takeInvalidOpcode_p (s : State) (byte : Byte) (pc : Word) : (s.takeInvalidOpcode byte pc).p = s.p := rfl
@[simp] theorem State.takeInvalidOpcode_mem (s : State) (byte : Byte) (pc : Word) : (s.takeInvalidOpcode byte pc).mem = s.mem := rfl
@[simp] theorem State.takeInvalidOpcode_budget (s : State) (byte : Byte) (pc : Word) : (s.takeInvalidOpcode byte pc).budget = s.budget := rfl
@[simp] theorem State.takeInvalidOpcode_run (s : State) (byte : Byte) (pc : Word) : (s.takeInvalidOpcode byte pc).run = .faulted byte pc := rfl

@[simp] theorem State.startExecute_a (s : State) (b : Nat) : (s.startExecute b).a = s.a := rfl
@[simp] theorem State.startExecute_x (s : State) (b : Nat) : (s.startExecute b).x = s.x := rfl
@[simp] theorem State.startExecute_y (s : State) (b : Nat) : (s.startExecute b).y = s.y := rfl
@[simp] theorem State.startExecute_sp (s : State) (b : Nat) : (s.startExecute b).sp = s.sp := rfl
@[simp] theorem State.startExecute_pc (s : State) (b : Nat) : (s.startExecute b).pc = s.pc := rfl
@[simp] theorem State.startExecute_p (s : State) (b : Nat) : (s.startExecute b).p = s.p := rfl
@[simp] theorem State.startExecute_mem (s : State) (b : Nat) : (s.startExecute b).mem = s.mem := rfl
@[simp] theorem State.startExecute_budget (s : State) (b : Nat) : (s.startExecute b).budget = b := rfl
@[simp] theorem State.startExecute_run (s : State) (b : Nat) : (s.startExecute b).run = if b = 0 then .idle else .dispatching := rfl

@[simp] theorem State.fetch_fst (s : State) : s.fetch.1 = s.memRead s.pc := rfl
@[simp] theorem State.fetch_snd (s : State) : s.fetch.2 = s.advance := rfl

@[simp] theorem Flags.setZN_c (p : Flags) (v : Byte) : (p.setZN v).c = p.c := rfl
@[simp] theorem Flags.setZN_z (p : Flags) (v : Byte) : (p.setZN v).z = (v == 0) := rfl
@[simp] theorem Flags.setZN_i (p : Flags) (v : Byte) : (p.setZN v).i = p.i := rfl
@[simp] theorem Flags.setZN_d (p : Flags) (v : Byte) : (p.setZN v).d = p.d := rfl
@[simp] theorem Flags.setZN_b (p : Flags) (v : Byte) : (p.setZN v).b = p.b := rfl
@[simp] theorem Flags.setZN_v (p : Flags) (v : Byte) : (p.setZN v).v = p.v := rfl
@[simp] theorem Flags.setZN_n (p : Flags) (v : Byte) : (p.setZN v).n = v.getLsbD 7 := rfl

end Sys2Proof.Machine
end

