-- ==== Sys2Proof/Laws/Host.lean ====
section
/-! SUPPORT. What the loop of Execute and a host operation unfold to, once each. -/

namespace Sys2Proof.Machine

theorem executeLoop_idle {s : State} (h : s.run = .idle) (bound : Nat) :
    executeLoop bound s = (.ok, s) := by
  unfold executeLoop
  rw [h]

theorem executeLoop_faulted {s : State} {byte : Byte} {pc : Word} (h : s.run = .faulted byte pc)
    (bound : Nat) : executeLoop bound s = (.err byte pc, s) := by
  unfold executeLoop
  rw [h]

/-- One turn of the loop. -/
theorem executeLoop_succ {s t : State} (h : s.run = .dispatching) (hs : step s = .next t) (n : Nat) :
    executeLoop (n + 1) s = executeLoop n t := by
  conv => lhs; unfold executeLoop
  simp only [h, hs]

/-- Outside Faulted, Execute enters the loop with the budget as its bound. -/
theorem execute_eq_executeLoop {s : State} (h : ∀ byte pc, s.run ≠ .faulted byte pc) (b : Nat) :
    execute b s = executeLoop b (s.startExecute b) := by
  unfold execute
  split
  · rename_i byte pc hr
    exact absurd hr (h byte pc)
  · rfl
  · rfl

/-- Between Execute calls an operation is applied. -/
theorem hostApply_eq_run {s : State} (h : s.run ≠ .dispatching) (op : HostOp) :
    hostApply op s = some (op.run s) := by
  unfold hostApply
  split
  · contradiction
  · rfl
  · rfl

end Sys2Proof.Machine
end

