-- ==== Sys2Proof/Laws/Memory.lean ====
section
/-! SUPPORT. What reading after writing gives, and that every memory operation keeps the canonical
form. The reading lemmas need no canonical form. -/

namespace Sys2Proof.Machine

theorem Memory.read_nil (addr : Nat) : Memory.read [] addr = filler := rfl

theorem Memory.not_mem_erase (addr : Nat) (m : Memory) : ∀ c ∈ Memory.erase addr m, c.1 ≠ addr := by
  induction m with
  | nil => simp [Memory.erase]
  | cons c m ih =>
    simp only [Memory.erase]
    split
    · exact ih
    · rintro d hd
      rcases List.mem_cons.1 hd with rfl | hd
      · assumption
      · exact ih d hd

theorem Memory.mem_of_mem_erase {addr : Nat} {m : Memory} {c : Host.Cell}
    (h : c ∈ Memory.erase addr m) : c ∈ m := by
  induction m with
  | nil => simp [Memory.erase] at h
  | cons d m ih =>
    simp only [Memory.erase] at h
    split at h
    · exact List.mem_cons_of_mem _ (ih h)
    · rcases List.mem_cons.1 h with rfl | h
      · exact List.mem_cons_self
      · exact List.mem_cons_of_mem _ (ih h)

theorem Memory.read_of_not_mem {addr : Nat} {m : Memory} (h : ∀ c ∈ m, c.1 ≠ addr) :
    Memory.read m addr = filler := by
  induction m with
  | nil => rfl
  | cons c m ih =>
    simp only [Memory.read, if_neg (h c List.mem_cons_self)]
    exact ih fun d hd => h d (List.mem_cons_of_mem _ hd)

theorem Memory.read_erase_ne {addr other : Nat} (h : other ≠ addr) (m : Memory) :
    Memory.read (Memory.erase addr m) other = Memory.read m other := by
  induction m with
  | nil => rfl
  | cons c m ih =>
    simp only [Memory.erase]
    split
    · rename_i hc
      simp only [Memory.read, ih]
      rw [if_neg (by omega)]
    · simp only [Memory.read, ih]

theorem Memory.read_insert_self {addr : Nat} (v : Byte) {m : Memory} (h : ∀ c ∈ m, c.1 ≠ addr) :
    Memory.read (Memory.insert addr v m) addr = v := by
  induction m with
  | nil => simp [Memory.insert, Memory.read]
  | cons c m ih =>
    simp only [Memory.insert]
    split
    · simp [Memory.read]
    · simp only [Memory.read, if_neg (h c List.mem_cons_self)]
      exact ih fun d hd => h d (List.mem_cons_of_mem _ hd)

theorem Memory.read_insert_ne {addr other : Nat} (h : other ≠ addr) (v : Byte) (m : Memory) :
    Memory.read (Memory.insert addr v m) other = Memory.read m other := by
  induction m with
  | nil => simp [Memory.insert, Memory.read, Ne.symm h]
  | cons c m ih =>
    simp only [Memory.insert]
    split
    · simp [Memory.read, Ne.symm h]
    · simp only [Memory.read, ih]

/-- A read of the cell just written. -/
theorem Memory.read_write_self (m : Memory) (addr : Nat) (v : Byte) :
    (m.write addr v).read addr = v := by
  simp only [Memory.write]
  split
  · rename_i hv
    rw [Memory.read_of_not_mem (Memory.not_mem_erase addr m), hv]
  · exact Memory.read_insert_self v (Memory.not_mem_erase addr m)

/-- A read of any other cell. -/
theorem Memory.read_write_ne (m : Memory) {addr other : Nat} (h : other ≠ addr) (v : Byte) :
    (m.write addr v).read other = m.read other := by
  simp only [Memory.write]
  split
  · exact Memory.read_erase_ne h m
  · rw [Memory.read_insert_ne h, Memory.read_erase_ne h]

theorem Memory.wf_nil : Memory.wf [] := by simp [Memory.wf]

theorem Memory.mem_insert {addr : Nat} {v : Byte} {m : Memory} {c : Host.Cell}
    (h : c ∈ Memory.insert addr v m) : c = (addr, v) ∨ c ∈ m := by
  induction m with
  | nil => simpa [Memory.insert] using h
  | cons d m ih =>
    simp only [Memory.insert] at h
    split at h
    · simpa using h
    · rcases List.mem_cons.1 h with rfl | h
      · simp
      · rcases ih h with h | h
        · exact .inl h
        · exact .inr (List.mem_cons_of_mem _ h)

theorem Memory.wf_erase {m : Memory} (h : m.wf) (addr : Nat) : Memory.wf (Memory.erase addr m) := by
  refine ⟨?_, fun c hc => h.2 c (Memory.mem_of_mem_erase hc)⟩
  have h1 := h.1
  clear h
  induction m with
  | nil => simp [Memory.erase]
  | cons c m ih =>
    rw [List.pairwise_cons] at h1
    simp only [Memory.erase]
    split
    · exact ih h1.2
    · exact List.pairwise_cons.2 ⟨fun d hd => h1.1 d (Memory.mem_of_mem_erase hd), ih h1.2⟩

theorem Memory.wf_insert {m : Memory} (h : m.wf) {addr : Nat} {v : Byte} (hlt : addr < Config.memSize)
    (hv : v ≠ filler) (hfree : ∀ c ∈ m, c.1 ≠ addr) : Memory.wf (Memory.insert addr v m) := by
  refine ⟨?_, fun c hc => ?_⟩
  · have h1 := h.1
    clear h
    induction m with
    | nil => simp [Memory.insert]
    | cons c m ih =>
      have hc := hfree c List.mem_cons_self
      rw [List.pairwise_cons] at h1
      simp only [Memory.insert]
      split
      · rename_i hlt'
        refine List.pairwise_cons.2 ⟨fun d hd => ?_, List.pairwise_cons.2 h1⟩
        rcases List.mem_cons.1 hd with rfl | hd
        · exact hlt'
        · exact Nat.lt_trans hlt' (h1.1 d hd)
      · rename_i hge
        refine List.pairwise_cons.2
          ⟨fun d hd => ?_, ih (fun d hd => hfree d (List.mem_cons_of_mem _ hd)) h1.2⟩
        rcases Memory.mem_insert hd with rfl | hd
        · show c.1 < addr
          have hge' : ¬ addr < c.1 := hge
          omega
        · exact h1.1 d hd
  · rcases Memory.mem_insert hc with rfl | hc
    · exact ⟨hlt, hv⟩
    · exact h.2 c hc

/-- A write keeps the canonical form. -/
theorem Memory.wf_write {m : Memory} (h : m.wf) {addr : Nat} (hlt : addr < Config.memSize) (v : Byte) :
    (m.write addr v).wf := by
  simp only [Memory.write]
  split
  · exact Memory.wf_erase h addr
  · rename_i hv
    exact Memory.wf_insert (Memory.wf_erase h addr) hlt hv (Memory.not_mem_erase addr m)

theorem State.memRead_memWrite_self (s : State) (addr : Word) (v : Byte) :
    (s.memWrite addr v).memRead addr = v :=
  Memory.read_write_self s.mem addr.toNat v

theorem State.memRead_memWrite_ne (s : State) {addr other : Word} (h : other ≠ addr) (v : Byte) :
    (s.memWrite addr v).memRead other = s.memRead other :=
  Memory.read_write_ne s.mem (fun e => h (BitVec.eq_of_toNat_eq e)) v

theorem State.wf_memWrite {s : State} (h : s.mem.wf) (addr : Word) (v : Byte) :
    (s.memWrite addr v).mem.wf :=
  Memory.wf_write h addr.isLt v

theorem State.wf_fillMemory (s : State) : s.fillMemory.mem.wf := Memory.wf_nil

theorem State.wf_storeBytes {s : State} (h : s.mem.wf) (addr : Word) (bs : List Byte) :
    (s.storeBytes addr bs).mem.wf := by
  induction bs generalizing s addr with
  | nil => exact h
  | cons b bs ih => exact ih (State.wf_memWrite h addr b) (addr + 1)

theorem State.wf_withFetchWord {s : State} (h : s.mem.wf) (nbits w : Nat) :
    (s.withFetchWord nbits w).mem.wf :=
  State.wf_storeBytes h s.pc (tableWordBytes nbits w)

end Sys2Proof.Machine
end

