-- ==== Sys2Proof/Laws/Ops.lean ====
section
/-! SUPPORT. What the shared operations do, once each: the word write, the push, the addressing
modes, the end of a step, and a step as a whole. -/

namespace Sys2Proof.Machine

/-- Reading sees only the memory field. -/
theorem State.memRead_congr {s t : State} (h : s.mem = t.mem) (addr : Word) :
    s.memRead addr = t.memRead addr := by
  simp only [State.memRead, h]

/-- A state is its nine fields. -/
theorem State.ext_fields {s t : State} (ha : s.a = t.a) (hx : s.x = t.x) (hy : s.y = t.y)
    (hsp : s.sp = t.sp) (hpc : s.pc = t.pc) (hp : s.p = t.p) (hm : s.mem = t.mem)
    (hb : s.budget = t.budget) (hr : s.run = t.run) : s = t := by
  cases s
  cases t
  simp only at *
  subst_vars
  rfl

theorem State.writeWord_mem (s : State) (lo hi value : Word) :
    (s.writeWord lo hi value).mem =
      (s.mem.write lo.toNat (lowByte value)).write hi.toNat (highByte value) := rfl

theorem State.writeWord_budget (s : State) (lo hi value : Word) :
    (s.writeWord lo hi value).budget = s.budget - 2 := by
  simp [State.writeWord, wordWriteCycles]

/-- The push: two bytes written, two cycles, SP raised by two; nothing else. -/
theorem State.pushWord_eq (s : State) (value : Word) :
    s.pushWord value =
      { s with
        mem := (s.mem.write (stackAddr s.sp).toNat (lowByte value)).write
          (stackAddr (s.sp + 1)).toNat (highByte value)
        budget := s.budget - 2
        sp := s.sp + 2 } := by
  refine State.ext_fields rfl rfl rfl rfl rfl rfl rfl ?_ rfl
  exact State.writeWord_budget s _ _ value

theorem State.wf_pushWord {s : State} (h : s.mem.wf) (value : Word) : (s.pushWord value).mem.wf :=
  State.wf_memWrite (State.wf_memWrite h _ _) _ _

/-- The stack address of an offset, as a number. -/
theorem stackAddr_toNat (o : Byte) : (stackAddr o).toNat = 256 + o.toNat := by
  have h : ∀ o : Byte, stackAddr o = 256#16 + o.setWidth 16 := by decide
  rw [h]
  have := o.isLt
  simp only [BitVec.toNat_add, BitVec.toNat_setWidth, BitVec.toNat_ofNat]
  omega

theorem stackAddr_injective {o o' : Byte} (h : stackAddr o = stackAddr o') : o = o' := by
  have := congrArg BitVec.toNat h
  rw [stackAddr_toNat, stackAddr_toNat] at this
  exact BitVec.eq_of_toNat_eq (by omega)

theorem resolveZeroPage_eq (zp : Byte) (s : State) :
    resolveZeroPage zp s =
      (s.memRead (zeroPageAddr zp), (s.advance).consume dereferenceCycles) := rfl

theorem resolveZeroPageX_eq (zp : Byte) (s : State) :
    resolveZeroPageX zp s =
      (s.memRead (zeroPageXAddr zp s.x),
        ((s.advance).consume indexCycles).consume dereferenceCycles) := rfl

/-- What the three loads share, field by field. -/
theorem loadA_eq (v : Byte) (s : State) :
    loadA (v, s) = .next { s with a := v, p := s.p.setZN v } := rfl

@[simp] theorem State.endStep_a (s : State) : s.endStep.a = s.a := by unfold State.endStep; split <;> rfl
@[simp] theorem State.endStep_x (s : State) : s.endStep.x = s.x := by unfold State.endStep; split <;> rfl
@[simp] theorem State.endStep_y (s : State) : s.endStep.y = s.y := by unfold State.endStep; split <;> rfl
@[simp] theorem State.endStep_sp (s : State) : s.endStep.sp = s.sp := by unfold State.endStep; split <;> rfl
@[simp] theorem State.endStep_pc (s : State) : s.endStep.pc = s.pc := by unfold State.endStep; split <;> rfl
@[simp] theorem State.endStep_p (s : State) : s.endStep.p = s.p := by unfold State.endStep; split <;> rfl
@[simp] theorem State.endStep_mem (s : State) : s.endStep.mem = s.mem := by
  unfold State.endStep; split <;> rfl
@[simp] theorem State.endStep_budget (s : State) : s.endStep.budget = s.budget := by
  unfold State.endStep; split <;> rfl

theorem State.endStep_run (s : State) : s.endStep.run = if s.budget = 0 then .idle else s.run := by
  unfold State.endStep
  split <;> rfl

/-- Everything a step that answers a next state can have done: waited, ended a loop without budget,
taken InvalidOpcode, or run the decoded instruction. -/
theorem step_cases {s t : State} (h : step s = .next t) :
    (s.run = .idle ∧ t = s) ∨
    (s.run = .dispatching ∧ s.budget = 0 ∧ t = s.withRun .idle) ∨
    (s.run = .dispatching ∧ s.budget ≠ 0 ∧ (∃ e, s.decodeAtPc = .error e) ∧
      t = s.advance.takeInvalidOpcode (s.memRead s.pc) s.pc) ∨
    (s.run = .dispatching ∧ s.budget ≠ 0 ∧ ∃ i rest u, s.decodeAtPc = .ok (i, rest) ∧
      exec i s.advance = .next u ∧ t = u.endStep) := by
  unfold step at h
  split at h
  · rename_i hr
    simp only [stepIdle, Host.Outcome.next.injEq] at h
    exact .inl ⟨hr, h.symm⟩
  · rename_i hr
    unfold stepDispatching at h
    split at h
    · rename_i hb
      simp only [Host.Outcome.next.injEq] at h
      exact .inr (.inl ⟨hr, hb, h.symm⟩)
    · rename_i hb
      unfold fetchExecute at h
      split at h
      · rename_i i rest hd
        simp only [State.fetch_snd] at h
        cases he : exec i s.advance with
        | next u =>
          rw [he] at h
          simp only [endStepOutcome, Host.Outcome.next.injEq] at h
          exact .inr (.inr (.inr ⟨hr, hb, i, rest, u, hd, he, h.symm⟩))
        | fault r => rw [he] at h; simp [endStepOutcome] at h
        | refused r => rw [he] at h; simp [endStepOutcome] at h
      · rename_i e hd
        simp only [Host.Outcome.next.injEq, State.fetch_fst, State.fetch_snd] at h
        exact .inr (.inr (.inl ⟨hr, hb, ⟨e, hd⟩, h.symm⟩))
  · simp [stepFaulted] at h

end Sys2Proof.Machine
end

