-- ==== Sys2Proof/Laws/Step.lean ====
section
/-! SUPPORT. A state made by `withFetchWord` is about to run the word it was given. -/

namespace Sys2Proof.Machine

theorem State.storeBytes_three (s : State) (addr : Word) (b0 b1 b2 : Byte) :
    let t := s.storeBytes addr [b0, b1, b2]
    t.memRead addr = b0 ∧ t.memRead (addr + 1) = b1 ∧ t.memRead (addr + 2) = b2 := by
  have h01 : addr ≠ addr + 1 := by bv_omega
  have h02 : addr ≠ addr + 1 + 1 := by bv_omega
  have h12 : addr + 1 ≠ addr + 1 + 1 := by bv_omega
  have h2 : addr + 2 = addr + 1 + 1 := by bv_omega
  refine ⟨?_, ?_, ?_⟩
  · simp only [State.storeBytes]
    rw [State.memRead_memWrite_ne _ h02, State.memRead_memWrite_ne _ h01, State.memRead_memWrite_self]
  · simp only [State.storeBytes]
    rw [State.memRead_memWrite_ne _ h12, State.memRead_memWrite_self]
  · rw [h2]
    simp only [State.storeBytes]
    rw [State.memRead_memWrite_self]

theorem State.storeBytes_pc (s : State) (addr : Word) (bs : List Byte) :
    (s.storeBytes addr bs).pc = s.pc := by
  induction bs generalizing s addr with
  | nil => rfl
  | cons b bs ih => exact ih (s.memWrite addr b) (addr + 1)

theorem State.withFetchWord_fetchBytes (s : State) (nbits w : Nat) :
    (s.withFetchWord nbits w).fetchBytes = tableWordBytes nbits w := by
  have h := State.storeBytes_three s s.pc (BitVec.ofNat 8 (w % 2 ^ nbits))
    (BitVec.ofNat 8 (w % 2 ^ nbits / 2 ^ 8)) (BitVec.ofNat 8 (w % 2 ^ nbits / 2 ^ 16))
  have hpc := State.storeBytes_pc s s.pc (tableWordBytes nbits w)
  simp only [State.fetchBytes, State.withFetchWord, State.readyToFetch, State.withRun_pc,
    State.withBudget_pc, hpc]
  exact congrArg₂ List.cons h.1 (congrArg₂ List.cons h.2.1 (congrArg₂ List.cons h.2.2 rfl))

theorem State.withFetchWord_run (s : State) (nbits w : Nat) :
    (s.withFetchWord nbits w).run = .dispatching := rfl

theorem State.withFetchWord_budget (s : State) (nbits w : Nat) :
    0 < (s.withFetchWord nbits w).budget := by
  have : (s.withFetchWord nbits w).budget =
      if (s.storeBytes s.pc (tableWordBytes nbits w)).budget = 0 then 1
      else (s.storeBytes s.pc (tableWordBytes nbits w)).budget := rfl
  rw [this]
  split <;> omega

/-- The next step decodes exactly what the decoder reads from the word. -/
theorem State.withFetchWord_decodes {s : State} {nbits w : Nat} {i : Instr}
    (h : decodeTableWord nbits w = some i) :
    ∃ rest, (s.withFetchWord nbits w).decodeAtPc = .ok (i, rest) := by
  unfold State.decodeAtPc
  rw [State.withFetchWord_fetchBytes]
  unfold decodeTableWord at h
  split at h
  · rename_i j rest hd
    simp only [Option.some.injEq] at h
    exact ⟨rest, by rw [hd, h]⟩
  · simp at h

end Sys2Proof.Machine
end

