-- ==== Sys2Proof/Tests/Slice0.lean ====
section
/-! SUPPORT. Tests, each of one step on a small state, with results from the vectors of
95_test_vectors.md (named in the test), words written out from 30_encoding.md R60 and R63, the smoke
test of well-formedness, and a witness for every statement that has hypotheses. -/

namespace Sys2Proof.Tests

open Sys2Proof.Machine

/-- One field of the next state, or none if the step stops. -/
def seen {α : Type} (f : State → α) : Host.Outcome State Fault Refusal → Option α
  | .next t => some (f t)
  | .fault _ => none
  | .refused _ => none

/-- The fault a step stops with, if it does. -/
def faultOf : Host.Outcome State Fault Refusal → Option Fault
  | .next _ => none
  | .fault r => some r
  | .refused _ => none

/-- Reset, PC set, bytes stored from PC on, and Execute(b) entered. -/
def program (pc : Word) (bytes : List Byte) (b : Nat) : State :=
  ((State.reset.withPc pc).storeBytes pc bytes).startExecute b

/-! ## Decoding: words written out from R60 and R63 -/

theorem test_decode_ldaImm : decodeTableWord 16 0b00000001_10101001 = some (.ldaImm 0x01) := by decide
theorem test_decode_ldaZp : decodeTableWord 16 0b00010000_10100101 = some (.ldaZp 0x10) := by decide
theorem test_decode_ldaZpx : decodeTableWord 16 0b11110000_10110101 = some (.ldaZpx 0xF0) := by decide
theorem test_decode_jsr : decodeTableWord 24 0b00010010_00110100_00100000 = some (.jsr 0x1234) := by decide
theorem test_decode_nop : decodeTableWord 8 0b11101010 = some .nop := by decide
/-- The five bytes R65 names as unmapped although a real 6502 has them. -/
theorem test_decode_unmapped :
    [0x00, 0x40, 0x60, 0xAD, 0x58].map (decodeTableWord 24) = [none, none, none, none, none] := by decide
theorem test_decode_truncated : (decode [0x20, 0x42]).toOption = none := by decide
/-- R65: 251 values are unmapped. -/
theorem test_unmapped_count :
    ((List.range 256).filter fun n => (lookupOpcode (BitVec.ofNat 8 n)).isNone).length = 251 := by decide +kernel
theorem test_assembly : (Instr.ldaZpx 0xF0).assembly = ['L', 'D', 'A', ' ', '$', 'F', '0', ',', 'X'] := by decide

/-! ## Well-formedness: each check refuses an ill-formed term -/

theorem smoke_no_bytes : wellFormedEncoding [] = false := by decide
theorem smoke_unmapped_opcode : wellFormedEncoding [0x02] = false := by decide
theorem smoke_too_short : wellFormedEncoding [0x20, 0x42] = false := by decide
theorem smoke_too_long : wellFormedEncoding [0xEA, 0x00] = false := by decide
theorem smoke_well_formed : wellFormedEncoding [0xA9, 0x02] = true := by decide
theorem smoke_instr : (Instr.jsr 0x4242).wellFormed = true := by decide
theorem smoke_memory_unsorted : ¬ Memory.wf [(5, 1), (3, 1)] := by decide
theorem smoke_memory_filler_listed : ¬ Memory.wf [(5, 0xEA)] := by decide
theorem smoke_memory_out_of_range : ¬ Memory.wf [(65536, 1)] := by decide

/-! ## One step, from the vectors of 95_test_vectors.md -/

/-- V-IMM2: the other flags are kept, Z is set for 00. -/
theorem test_ldaImm_keeps_flags :
    seen (fun t => (t.a, t.p, t.pc, t.budget))
      (step ((program 0xFFFC [0xA9, 0x00] 2).withP ⟨true, false, true, true, true, true, false⟩)) =
    some (0x00, ⟨true, true, true, true, true, true, false⟩, 0xFFFE, 0) := by decide
/-- V-IMM4: the operand is fetched from 0x0000. -/
theorem test_ldaImm_operand_wrap :
    seen (fun t => (t.a, t.pc, t.p.z, t.p.n)) (step (program 0xFFFF [0xA9, 0x33] 2)) =
    some (0x33, 0x0001, false, false) := by decide
/-- V-ZP1 and V-ZP4: overdraw clamps at zero. -/
theorem test_ldaZp_overdraw :
    seen (fun t => (t.a, t.p.n, t.p.z, t.pc, t.budget, t.run))
      (step ((program 0x0200 [0xA5, 0x10] 2).memWrite 0x0010 0x80)) =
    some (0x80, true, false, 0x0202, 0, .idle) := by decide
/-- V-ZP3: the instruction reads its own operand byte. -/
theorem test_ldaZp_own_operand :
    seen (fun t => (t.a, t.pc)) (step (program 0x0000 [0xA5, 0x01] 3)) = some (0x01, 0x0002) := by decide
/-- V-ZPX2: the address wraps to 0x0010 and is not 0x0110. -/
theorem test_ldaZpx_wrap :
    seen (fun t => (t.a, t.p.z, t.x, t.pc, t.budget))
      (step ((((program 0x0300 [0xB5, 0xF0] 4).withX 0x20).memWrite 0x0010 0x00).memWrite 0x0110 0x55)) =
    some (0x00, true, 0x20, 0x0302, 0) := by decide
/-- V-ZPX3. -/
theorem test_ldaZpx_high :
    seen (fun t => (t.a, t.p.n)) (step (((program 0x0300 [0xB5, 0x80] 4).withX 0xFF).memWrite 0x007F 0xC0)) =
    some (0xC0, true) := by decide
/-- V-JSR4: the high byte wraps to 0x0100. -/
theorem test_jsr_stack_wrap :
    seen (fun t => (t.memRead 0x01FF, t.memRead 0x0100, t.sp, t.pc, t.memRead 0x0200))
      (step ((program 0x0200 [0x20, 0x34, 0x12] 6).withSp 0xFF)) =
    some (0x02, 0x02, 0x01, 0x1234, 0x20) := by decide
/-- V-JSR9: the target is fetched before the push overwrites the instruction. -/
theorem test_jsr_overwrites_itself :
    seen (fun t => (t.pc, t.memRead 0x0100, t.memRead 0x0101, t.memRead 0x0102, t.sp, t.budget))
      (step (program 0x0100 [0x20, 0x00, 0x05] 6)) =
    some (0x0500, 0x02, 0x01, 0x05, 0x02, 0) := by decide
/-- V-NOP2: PC wraps. -/
theorem test_nop_wrap :
    seen (fun t => (t.pc, t.budget)) (step (program 0xFFFF [] 2)) = some (0x0000, 0) := by decide
/-- V-INV1. -/
theorem test_invalid_opcode :
    seen (fun t => (t.pc, t.budget, t.run)) (step (program 0xFFFC [0x02] 5)) =
    some (0xFFFD, 4, .faulted 0x02 0xFFFC) := by decide
/-- V-INV2: the same failure again. -/
theorem test_faulted_stops :
    faultOf (step (State.reset.withRun (.faulted 0x02 0xFFFC))) = some (.invalidOpcode 0x02 0xFFFC) := by decide
/-- V-EX1: Execute(0) fetches nothing. -/
theorem test_execute_zero :
    execute 0 (State.reset.memWrite 0xFFFC 0x02) = (.ok, State.reset.memWrite 0xFFFC 0x02) := by decide
/-- V-RST1: Reset from a faulted state. -/
theorem test_reset_from_faulted :
    hostReset ((program 0x9ABC [0x00] 7).withRun (.faulted 0x02 0x1234)) = State.reset := by decide
/-- The fetch interface: the next step after reset runs the given word (W4's bytes). -/
theorem test_withFetchWord :
    seen (fun t => (t.a, t.pc)) (step (State.reset.withFetchWord 16 0x01A9)) = some (0x01, 0xFFFE) := by decide
/-- Writing the filler removes the entry. -/
theorem test_write_filler : (State.reset.memWrite 5 1).memWrite 5 0xEA = State.reset := by decide
/-- R30: Negative is bit 6 and Overflow bit 5. -/
theorem test_packed : (Flags.packed ⟨false, false, false, false, false, true, true⟩) = 0x60 := by decide

/-! ## Witnesses: a state that meets the hypotheses of each statement, every clause -/

theorem witness_DecodeExactlyInvertsEncode : ∃ bs i rest, decode bs = .ok (i, rest) ∧ rest ≠ [] :=
  ⟨[0xA9, 0xFF, 0x02], .ldaImm 0xFF, [0x02], rfl, by decide⟩
theorem witness_DecodeRejectsExactlyTheUnmapped :
    (0xE9#8 ∉ [0x20#8, 0xA5#8, 0xA9#8, 0xB5#8, 0xEA#8]) ∧
    (0xEA#8 ∈ [0x20#8, 0xA5#8, 0xA9#8, 0xB5#8, 0xEA#8]) := by decide
theorem witness_DecodedBytesAreTheFetchedBytes :
    (program 0xFFFF [0xA9, 0x33] 1).decodeAtPc.toOption = some (.ldaImm 0x33, [0xEA]) ∧
    (program 0xFFFF [0xA5, 0x00] 1).decodeAtPc.toOption = some (.ldaZp 0x00, [0xEA]) ∧
    (program 0xFFFF [0xB5, 0xFF] 1).decodeAtPc.toOption = some (.ldaZpx 0xFF, [0xEA]) ∧
    (program 0xFFFE [0x20, 0x00, 0x30] 1).decodeAtPc.toOption = some (.jsr 0x3000, []) := by decide
theorem witness_SetZNFollowsTheResultByte :
    (1 ≤ (0x01#8).toNat ∧ (0x01#8).toNat ≤ 0x7F) ∧ (1 ≤ (0x7F#8).toNat ∧ (0x7F#8).toNat ≤ 0x7F) := by decide
theorem witness_ConsumeSaturatesAndComposes : (program 0 [] 2).budget ≤ 2 ∧ State.reset.budget ≤ 0 := by decide
theorem witness_FetchReadsAndAdvances : (program 0xFFFF [0xA9] 1).pc = 0xFFFF := by decide
theorem witness_MemWriteSetsOneCell : (0x0000 : Word) ≠ 0xFFFF := by decide
theorem witness_CanonicalMemoryIsUnique : Memory.wf [(0, 1), (65535, 2)] ∧
    ∀ addr : Word, Memory.read [(0, 1), (65535, 2)] addr.toNat = Memory.read [(0, 1), (65535, 2)] addr.toNat :=
  ⟨by decide, fun _ => rfl⟩
theorem witness_WriteWordStoresLittleEndian :
    (0xFFFF : Word) ≠ 0xFFFF + 1 ∧ (0x0001 : Word) ≠ 0xFFFF ∧ (0x0001 : Word) ≠ 0xFFFF + 1 := by decide
theorem witness_PushWritesTwoSlotsOfTheStackPage :
    (0x0200 : Word) ≠ BitVec.ofNat 16 (0x0100 + (0xFF#8).toNat) ∧
    (0x0200 : Word) ≠ BitVec.ofNat 16 (0x0100 + ((0xFF#8).toNat + 1) % 256) := by decide
theorem witness_JsrCompletesWithItsResult :
    (0x0200 : Word) ≠ stackAddr 0xFF ∧ (0x0200 : Word) ≠ stackAddr (0xFF + 1) := by decide
theorem witness_LoadsFrame :
    ∃ t u v, exec (.ldaImm 0) State.reset = .next t ∧ exec (.ldaZp 0xFF) State.reset = .next u ∧
      exec (.ldaZpx 0xFF) State.reset = .next v := ⟨_, _, _, rfl, rfl, rfl⟩
theorem witness_JsrFrame :
    ∃ t, exec (.jsr 0x4242) (State.reset.withSp 0xFF) = .next t ∧
      (0x00FF : Word) ≠ stackAddr 0xFF ∧ (0x00FF : Word) ≠ stackAddr (0xFF + 1) := ⟨_, rfl, by decide⟩
theorem witness_NopFrame : ∃ t, exec .nop State.reset = .next t := ⟨_, rfl⟩
theorem witness_InstructionsWriteOnlyTheirDocumentedFlags :
    ∃ t u, exec (.jsr 0) State.reset = .next t ∧ exec (.ldaZp 0) State.reset = .next u ∧
      Instr.ldaZp 0 ≠ .nop ∧ ∀ target, Instr.ldaZp 0 ≠ .jsr target :=
  ⟨_, _, rfl, rfl, by decide, fun _ h => by cases h⟩
theorem witness_StepRunsTheDecodedInstruction :
    let s := program 0xFFFC [0xA9, 0x01] 1
    s.Running ∧ s.decodeAtPc = .ok (.ldaImm 0x01, [0xEA]) ∧
      ∃ t, exec (.ldaImm 0x01) { s with pc := s.pc + 1, budget := s.budget - 1 } = .next t :=
  ⟨by decide, rfl, _, rfl⟩
theorem witness_LdaImmediateStep :
    (program 0xFFFF [0xA9] 1).Running ∧ (program 0xFFFF [0xA9] 1).memRead 0xFFFF = 0xA9 := by decide
theorem witness_LdaZeroPageStep :
    (program 0xFFFF [0xA5] 1).Running ∧ (program 0xFFFF [0xA5] 1).memRead 0xFFFF = 0xA5 := by decide
theorem witness_LdaZeroPageXStep :
    (program 0xFFFF [0xB5] 1).Running ∧ (program 0xFFFF [0xB5] 1).memRead 0xFFFF = 0xB5 := by decide
theorem witness_JsrStep :
    (program 0xFFFF [0x20] 1).Running ∧ (program 0xFFFF [0x20] 1).memRead 0xFFFF = 0x20 ∧
    (0x0102 : Word) ≠ 0x0100 ||| (0x00#8).setWidth 16 ∧
    (0x0102 : Word) ≠ 0x0100 ||| (0x00#8 + 1).setWidth 16 := by decide
theorem witness_NopStep :
    (program 0xFFFF [] 1).Running ∧ (program 0xFFFF [] 1).memRead 0xFFFF = 0xEA := by decide
theorem witness_UnmappedOpcodeStepTakesInvalidOpcode :
    (program 0xFFFF [0xFF] 1).Running ∧
    (program 0xFFFF [0xFF] 1).memRead 0xFFFF ∉ [0x20#8, 0xA5#8, 0xA9#8, 0xB5#8, 0xEA#8] := by decide
theorem witness_IdleWaitsAndFaultedStops :
    State.reset.run = .idle ∧ (State.reset.withRun (.faulted 0x02 0xFFFC)).run = .faulted 0x02 0xFFFC := by decide
theorem witness_NoBudgetNoFetch :
    (State.reset.budget = 0 ∧ State.reset.notFaulted = true) ∧
    ((State.reset.withRun .dispatching).budget = 0 ∧ (State.reset.withRun .dispatching).notFaulted = true) := by decide
theorem witness_StepMovesPcByLengthOrToTarget :
    let s := program 0xFFFC [0x20, 0x00, 0x02] 1
    let r := program 0xFFFC [0xB5, 0x00] 1
    let q := program 0xFFFF [0x02] 1
    (s.Running ∧ s.decodeAtPc = .ok (.jsr 0x0200, []) ∧ ∃ t, step s = .next t) ∧
    (r.Running ∧ r.decodeAtPc = .ok (.ldaZpx 0x00, [0xEA]) ∧ (∃ t, step r = .next t) ∧
      ∀ target, Instr.ldaZpx 0x00 ≠ .jsr target) ∧
    (q.Running ∧ q.decodeAtPc = .error (.unmapped 0x02) ∧ ∃ t, step q = .next t) :=
  ⟨⟨by decide, rfl, _, rfl⟩, ⟨by decide, rfl, ⟨_, rfl⟩, fun _ h => by cases h⟩, ⟨by decide, rfl, _, rfl⟩⟩
theorem witness_StepCostsTheTableCycles :
    let s := program 0xFFFC [] 2
    let r := program 0xFFFC [] 3
    (s.Running ∧ s.decodeAtPc = .ok (.nop, [0xEA, 0xEA]) ∧ s.budget ≤ Instr.nop.cycles) ∧
    (r.Running ∧ r.decodeAtPc = .ok (.nop, [0xEA, 0xEA]) ∧ Instr.nop.cycles < r.budget) :=
  ⟨⟨by decide, rfl, by decide⟩, ⟨by decide, rfl, by decide⟩⟩
theorem witness_StepNeverWritesXYOrTheOtherFlags : ∃ t, step (program 0xFFFC [0xA9, 0x00] 2) = .next t := ⟨_, rfl⟩
theorem witness_StepWritesOnlyTheStackPage :
    (∃ t, step (program 0xFFFC [0x20, 0x00, 0x02] 2) = .next t) ∧
    ((0x00FF : Word).toNat < 0x0100) ∧ (0x01FF < (0x0200 : Word).toNat) := ⟨⟨_, rfl⟩, by decide, by decide⟩
theorem witness_StepKeepsZeroAndNegativeExclusive :
    let s := program 0xFFFC [0xA9, 0x80] 2
    ¬ (s.p.z = true ∧ s.p.n = true) ∧ ∃ t, step s = .next t := ⟨by decide, _, rfl⟩
theorem witness_StepKeepsTheInvariant :
    let s := program 0xFFFC [0x20, 0x00, 0x02] 6
    s.Inv ∧ ∃ t, step s = .next t := ⟨by decide, _, rfl⟩
theorem witness_StepFailsOnlyWhenFaulted :
    (program 0xFFFC [0x02] 1).Inv ∧ (State.reset.withRun (.faulted 0x02 0xFFFC)).Inv := by decide
theorem witness_ExecuteIsFirstStepThenTheRest :
    seen (fun t => t.run) (step (State.reset.startExecute 3)) = some .dispatching ∧
    seen (fun t => t.run) (step (State.reset.startExecute 2)) = some .idle ∧
    seen (fun t => t.run) (step ((State.reset.memWrite 0xFFFC 0x02).startExecute 1)) =
      some (.faulted 0x02 0xFFFC) ∧ State.reset.notFaulted = true := by decide
theorem witness_ExecuteOneRunsOneInstruction : State.reset.notFaulted = true := by decide
theorem witness_ExecuteZeroFetchesNothing : (State.reset.memWrite 0xFFFC 0x02).notFaulted = true := by decide
theorem witness_ExecuteInFaultedReturnsTheSameErr :
    (State.reset.withRun (.faulted 0x02 0xFFFC)).run = .faulted 0x02 0xFFFC := by decide
theorem witness_FillerMemoryRunsNops :
    State.reset.notFaulted = true ∧ ∀ addr : Word, State.reset.memRead addr = 0xEA := ⟨rfl, fun _ => rfl⟩
theorem witness_ExecuteDoesNotReadAYOrFlags :
    let s := State.reset
    let t := ((State.reset.withA 1).withY 2).withP ⟨true, true, true, true, true, true, true⟩
    s.sameControl t ∧ s ≠ t := by decide
theorem witness_ExecuteFrame : ((0x00FF : Word).toNat < 0x0100) ∧ (0x01FF < (0x0200 : Word).toNat) := by decide
theorem witness_HostWritesChangeWhatTheyName : (0x0000 : Word) ≠ 0xFFFF := by decide
theorem witness_HostActsOnlyBetweenExecutes :
    (program 0xFFFC [] 1).run = .dispatching ∧ State.reset.run ≠ .dispatching := by decide
theorem witness_FaultedLastsUntilReset :
    (State.reset.withRun (.faulted 0x02 0xFFFC)).run = .faulted 0x02 0xFFFC ∧
    ∀ op ∈ [HostOp.execute 5, HostOp.setPc 0, HostOp.observe], op ≠ .reset := by decide
theorem witness_HostOperationsHaveTheirEffect :
    State.reset.run ≠ .dispatching ∧ (State.reset.withRun (.faulted 0x02 0xFFFC)).run ≠ .dispatching ∧
    (0x0000 : Word) ≠ 0xFFFF := by decide
theorem witness_HostOperationsKeepTheInvariant :
    let s := State.reset.memWrite 0xFFFF 0x02
    let r := State.reset.withRun (.faulted 0x02 0xFFFC)
    (s.Inv ∧ s.run ≠ .dispatching) ∧ (r.Inv ∧ r.run ≠ .dispatching) := by decide
theorem witness_StepDoesNotReadAYOrFlags :
    let s := program 0xFFFF [0xA9, 0x33] 1
    let t := ((s.withA 1).withY 2).withP ⟨true, true, true, true, true, true, true⟩
    s.sameControl t ∧ s ≠ t ∧ ∃ s', step s = .next s' := ⟨by decide, by decide, _, rfl⟩

end Sys2Proof.Tests
end

section
/-! SUPPORT. The flag logic: what SetZN does (10_state.md R28), and which flags an instruction
writes (R29). -/

namespace Sys2Proof.Machine

/-! ## SetZN -/

theorem Flags.setZN_eq (p : Flags) (v : Byte) :
    p.setZN v = { p with z := decide (v = 0), n := v.getLsbD 7 } := by
  simp only [Flags.setZN, beq_eq_decide]

theorem State.setZN_eq (s : State) (v : Byte) :
    s.setZN v = { s with p := { s.p with z := decide (v = 0), n := v.getLsbD 7 } } :=
  congrArg s.withP (Flags.setZN_eq s.p v)

/-- The byte that sets Z is 0, and bit 7 of 0 is clear. -/
theorem Flags.setZN_exclusive (p : Flags) (v : Byte) :
    ¬ ((p.setZN v).z = true ∧ (p.setZN v).n = true) := by
  rintro ⟨hz, hn⟩
  have hv : v = 0 := by simpa using hz
  subst hv
  simp at hn

theorem Flags.setZN_z_of_pos (p : Flags) {v : Byte} (h : 1 ≤ v.toNat) : (p.setZN v).z = false := by
  have hv : v ≠ 0 := by
    rintro rfl
    simp at h
  simpa using hv

theorem Flags.setZN_n_of_le (p : Flags) {v : Byte} (h : v.toNat ≤ 0x7F) : (p.setZN v).n = false :=
  Nat.testBit_lt_two_pow (Nat.lt_succ_of_le h)

/-- Settles O6: SetZN by its definition, and its two consequences from the value of the byte. -/
theorem setZNFollowsTheResultByte : Obligations.SetZNFollowsTheResultByte := by
  intro s v
  refine ⟨State.setZN_eq s v, Flags.setZN_exclusive s.p v, ?_⟩
  rintro ⟨hpos, hle⟩
  exact ⟨Flags.setZN_z_of_pos s.p hpos, Flags.setZN_n_of_le s.p hle⟩

/-! ## The flags an instruction writes -/

@[simp] theorem State.pushWord_p (s : State) (value : Word) : (s.pushWord value).p = s.p := rfl

theorem exec_jsr_p {target : Word} {s t : State} (h : exec (.jsr target) s = .next t) :
    t.p = s.p := by
  simp only [exec, execJsr, resolveAbsolute, Host.Outcome.next.injEq] at h
  simp [← h]

theorem exec_nop_p {s t : State} (h : exec .nop s = .next t) : t.p = s.p := by
  simp only [exec, execNop, resolveImplied, Host.Outcome.next.injEq] at h
  simp [← h]

/-- The flags after a load are SetZN of the byte now in A, on the flags its operand fetch left. -/
theorem loadA_p {operand : Byte × State} {t : State} (h : loadA operand = .next t) :
    t.p = operand.2.p.setZN t.a := by
  simp only [loadA, Host.Outcome.next.injEq] at h
  simp [← h]

theorem exec_p_of_nop_or_jsr {i : Instr} {s t : State} (h : exec i s = .next t)
    (hi : i = .nop ∨ ∃ target, i = .jsr target) : t.p = s.p := by
  obtain rfl | ⟨target, rfl⟩ := hi
  · exact exec_nop_p h
  · exact exec_jsr_p h

/-- The three other instructions are the loads, and no addressing mode changes a flag. -/
theorem exec_p_of_load {i : Instr} {s t : State} (h : exec i s = .next t)
    (hnop : i ≠ .nop) (hjsr : ∀ target, i ≠ .jsr target) : t.p = s.p.setZN t.a := by
  cases i with
  | jsr target => exact absurd rfl (hjsr target)
  | nop => exact absurd rfl hnop
  | ldaZp zp => exact loadA_p (operand := resolveZeroPage zp s) h
  | ldaImm imm => exact loadA_p (operand := resolveImmediate imm s) h
  | ldaZpx zp => exact loadA_p (operand := resolveZeroPageX zp s) h

/-- All an instruction can do to the flags (R29). -/
theorem exec_p_cases {i : Instr} {s t : State} (h : exec i s = .next t) :
    t.p = s.p ∨ t.p = s.p.setZN t.a := by
  by_cases hi : i = .nop ∨ ∃ target, i = .jsr target
  · exact .inl (exec_p_of_nop_or_jsr h hi)
  · obtain ⟨hnop, hjsr⟩ := not_or.1 hi
    exact .inr (exec_p_of_load h hnop (not_exists.1 hjsr))

/-- Settles O21: JSR and NOP keep the flags, a load applies SetZN to them, and SetZN keeps five. -/
theorem instructionsWriteOnlyTheirDocumentedFlags :
    Obligations.InstructionsWriteOnlyTheirDocumentedFlags := by
  intro i s t h
  refine ⟨?_, exec_p_of_nop_or_jsr h, fun ⟨hnop, hjsr⟩ => ?_⟩
  · obtain hp | hp := exec_p_cases h
    · simp [hp]
    · simp [hp]
  · simp [exec_p_of_load h hnop hjsr, Flags.setZN_eq]

end Sys2Proof.Machine
end

section
/-! SUPPORT. The memory: what a byte write does to the cell it names and what it leaves alone
(20_memory.md R42). -/

namespace Sys2Proof.Machine

/-- The frame of a byte write: all state but the memory is kept. -/
theorem State.memWrite_frame (s : State) (addr : Word) (v : Byte) :
    s.memWrite addr v = { s with mem := (s.memWrite addr v).mem } := rfl

/-- Settles O10: the two cases of a read after a write, and the frame of the write. -/
theorem memWriteSetsOneCell : Obligations.MemWriteSetsOneCell := fun s addr v =>
  ⟨State.memRead_memWrite_self s addr v,
    fun _ hne => State.memRead_memWrite_ne s hne v,
    State.memWrite_frame s addr v⟩

end Sys2Proof.Machine
end

section
/-! SUPPORT. The byte fetch (40_dispatch.md R87) and the addressing modes built on it (R88 to R91). -/

namespace Sys2Proof.Machine

/-! ## The byte fetch -/

/-- The deduction and its frame: truncated subtraction is the saturation of R83. -/
theorem State.consume_eq (s : State) (n : Nat) :
    s.consume n = { s with budget := s.budget - n } :=
  congrArg s.withBudget (State.consume_budget s n)

/-- Two deductions saturate as their sum does (R85). -/
theorem State.consume_consume (s : State) (m n : Nat) :
    (s.consume m).consume n = s.consume (m + n) := by
  simp only [State.consume_eq, Nat.sub_sub]

/-- The advance of a fetch and its frame. -/
theorem State.advance_eq (s : State) :
    s.advance = { s with pc := s.pc + 1, budget := s.budget - 1 } :=
  State.consume_eq (s.withPc (s.pc + 1)) fetchCycles

theorem State.advance_consume (s : State) (n : Nat) :
    s.advance.consume n = { s with pc := s.pc + 1, budget := s.budget - (1 + n) } := by
  rw [State.consume_eq, State.advance_eq, Nat.sub_sub]

theorem State.advance_advance (s : State) :
    s.advance.advance = { s with pc := s.pc + 2, budget := s.budget - 2 } := by
  have hpc : s.pc + 1 + 1 = s.pc + 2 := BitVec.add_assoc s.pc 1 1
  simp only [State.advance_eq, hpc, Nat.sub_sub]

theorem State.fetch_eq (s : State) :
    s.fetch = (s.memRead s.pc, { s with pc := s.pc + 1, budget := s.budget - 1 }) :=
  congrArg (Prod.mk (s.memRead s.pc)) (State.advance_eq s)

/-- Settles O9: the advance and its frame; the sum of two words wraps at 2^16, so 0xFFFF is followed
by 0. -/
theorem fetchReadsAndAdvances : Obligations.FetchReadsAndAdvances := by
  intro s
  refine ⟨State.fetch_eq s, BitVec.toNat_add s.pc 1, fun hpc => ⟨congrArg s.memRead hpc, ?_⟩⟩
  calc s.fetch.2.pc = s.pc + 1 := State.advance_pc s
    _ = 0xFFFF + 1 := by rw [hpc]
    _ = 0x0000 := by decide

/-! ## The addressing modes -/

/-- The wrap inside page 0 (R90), as a number. -/
theorem zeroPageXAddr_eq_ofNat (zp x : Byte) :
    zeroPageXAddr zp x = BitVec.ofNat 16 ((zp.toNat + x.toNat) % 256) := by
  rw [← BitVec.toNat_add zp x, BitVec.ofNat_toNat]
  rfl

/-- The little-endian word (R62, R91), as a number: appending shifts the high byte up by eight bits. -/
theorem wordOfBytes_eq_ofNat (hi lo : Byte) :
    wordOfBytes hi lo = BitVec.ofNat 16 (hi.toNat * 256 + lo.toNat) := by
  have hval : (wordOfBytes hi lo).toNat = hi.toNat * 256 + lo.toNat := by
    rw [wordOfBytes, BitVec.toNat_append, ← Nat.shiftLeft_add_eq_or_of_lt lo.isLt, Nat.shiftLeft_eq]
  rw [← hval, BitVec.ofNat_toNat, BitVec.setWidth_eq]

theorem resolveImmediate_spec (imm : Byte) (s : State) :
    resolveImmediate imm s = (imm, { s with pc := s.pc + 1, budget := s.budget - 1 }) :=
  congrArg (Prod.mk imm) (State.advance_eq s)

/-- Two cycles: the fetch and the dereference. -/
theorem resolveZeroPage_spec (zp : Byte) (s : State) :
    resolveZeroPage zp s =
      (s.memRead (zp.setWidth 16), { s with pc := s.pc + 1, budget := s.budget - 2 }) := by
  rw [resolveZeroPage_eq, State.advance_consume]
  rfl

/-- Three cycles: the fetch, the index addition and the dereference. -/
theorem resolveZeroPageX_spec (zp : Byte) (s : State) :
    resolveZeroPageX zp s =
      (s.memRead (BitVec.ofNat 16 ((zp.toNat + s.x.toNat) % 256)),
        { s with pc := s.pc + 1, budget := s.budget - 3 }) := by
  rw [resolveZeroPageX_eq, zeroPageXAddr_eq_ofNat, State.consume_consume, State.advance_consume]
  rfl

/-- Two cycles, the two fetches; the word is the address and is not dereferenced. -/
theorem resolveAbsolute_spec (target : Word) (s : State) :
    resolveAbsolute target s = (target, { s with pc := s.pc + 2, budget := s.budget - 2 }) :=
  congrArg (Prod.mk target) (State.advance_advance s)

/-- Settles O14: the four modes, each at the operand bytes that stand at PC. -/
theorem addressingModesResolveTheirOperands : Obligations.AddressingModesResolveTheirOperands := by
  intro s b1 b2
  refine ⟨resolveImmediate_spec b1 s, resolveZeroPage_spec b1 s, resolveZeroPageX_spec b1 s, ?_⟩
  rw [← wordOfBytes_eq_ofNat]
  exact resolveAbsolute_spec (wordOfBytes b2 b1) s

end Sys2Proof.Machine
end

section
/-! SUPPORT. One step of a running state (40_dispatch.md R82), and LDA immediate as a whole
(41_load.md R100). -/

namespace Sys2Proof.Machine

/-! ## A step that runs an instruction -/

/-- A Step may start, so the tests of the execute-loop state and of the budget pass (R81). -/
theorem step_of_running {s : State} (hrun : s.Running) : step s = fetchExecute s := by
  obtain ⟨hdisp, hbudget⟩ := hrun
  simp only [step, hdisp, stepDispatching, if_neg (Nat.ne_of_gt hbudget)]

theorem fetchExecute_of_decodeAtPc {s : State} {i : Instr} {rest : List Byte}
    (hdec : s.decodeAtPc = .ok (i, rest)) : fetchExecute s = endStepOutcome (exec i s.advance) := by
  simp only [fetchExecute, hdec, State.fetch_snd]

theorem State.endStep_of_dispatching {s : State} (hdisp : s.run = .dispatching) :
    s.endStep = { s with run := runAfter s.budget } := by
  unfold State.endStep runAfter
  split
  · rfl
  · rw [← hdisp]

/-- What a running state steps to, from what its instruction answers after the opcode fetch. -/
theorem step_of_exec_next {s t : State} {i : Instr} {rest : List Byte} (hrun : s.Running)
    (hdec : s.decodeAtPc = .ok (i, rest)) (hexec : exec i s.advance = .next t)
    (hdisp : t.run = .dispatching) : step s = .next { t with run := runAfter t.budget } := by
  calc step s = fetchExecute s := step_of_running hrun
    _ = endStepOutcome (exec i s.advance) := fetchExecute_of_decodeAtPc hdec
    _ = .next t.endStep := congrArg endStepOutcome hexec
    _ = .next { t with run := runAfter t.budget } := by rw [State.endStep_of_dispatching hdisp]

/-! ## LDA immediate -/

theorem decodeAtPc_of_opLdaImm {s : State} (hop : s.memRead s.pc = opLdaImm) :
    s.decodeAtPc = .ok (.ldaImm (s.memRead (s.pc + 1)), [s.memRead (s.pc + 2)]) := by
  rw [State.decodeAtPc, State.fetchBytes, hop]
  rfl

/-- What the three loads share, with SetZN written out (R28). -/
theorem loadA_spec (v : Byte) (s : State) :
    loadA (v, s) =
      .next { s with a := v, p := { s.p with z := decide (v = 0), n := v.getLsbD 7 } } := by
  rw [loadA_eq, Flags.setZN_eq]

/-- R100 from the opcode's own address on: the two fetches, then the load. -/
theorem exec_ldaImm_advance (imm : Byte) (s : State) :
    exec (.ldaImm imm) s.advance =
      .next { s with a := imm, pc := s.pc + 2, p := { s.p with z := decide (imm = 0), n := imm.getLsbD 7 },
                     budget := s.budget - 2 } := by
  have hload : exec (.ldaImm imm) s.advance = loadA (imm, s.advance.advance) := rfl
  rw [hload, loadA_spec, State.advance_advance]

/-- Settles O24: A9 at PC decodes to LDA of the byte after it, which runs after the opcode fetch and
leaves the loop state to the end of the step. -/
theorem ldaImmediateStep : Obligations.LdaImmediateStep := fun s hrun hop =>
  step_of_exec_next hrun (decodeAtPc_of_opLdaImm hop)
    (exec_ldaImm_advance (s.memRead (s.pc + 1)) s) hrun.1

end Sys2Proof.Machine
end

section
/-! SUPPORT. Reset (70_reset_and_hazards.md R151, R152). -/

namespace Sys2Proof.Machine

/-- Reset sets every field of the state, so nothing of the state it is called in remains (R151). -/
theorem hostReset_eq (s : State) : hostReset s = State.reset := rfl

/-- The memory of the reset state lists no cell, and an unlisted cell is the filler (R50). -/
theorem State.memRead_reset (addr : Word) : State.reset.memRead addr = filler :=
  Memory.read_nil addr.toNat

/-- Settles O48: Reset answers one state, whatever state it is called in, and the memory of that state
lists no cell. -/
theorem resetIsIdempotent : Obligations.ResetIsIdempotent := by
  intro s
  constructor
  · rw [hostReset_eq (hostReset s), hostReset_eq s]
  · intro addr
    rw [hostReset_eq s, State.memRead_reset]

end Sys2Proof.Machine
end

section
/-! SUPPORT. The decoder and the encoder undo each other (30_encoding.md R60 to R66), and the bytes
the decoder reads ahead are the bytes the fetches read (40_dispatch.md R87). -/

namespace Sys2Proof

/-! ## Decode against encode -/

theorem decode_encode_append (i : Instr) (rest : List Byte) :
    decode (encode i ++ rest) = .ok (i, rest) := by
  cases i with
  | jsr target =>
    have hdec : decode (encode (.jsr target) ++ rest) =
        .ok (.jsr (wordOfBytes (highByte target) (lowByte target)), rest) := rfl
    rw [hdec, wordOfBytes_highByte_lowByte]
  | ldaZp zp => rfl
  | ldaImm imm => rfl
  | ldaZpx zp => rfl
  | nop => rfl

/-- An entry the lookup answers stands in the table under the byte looked up (R64). -/
theorem lookupOpcode_eq_some {op : Byte} {e : TableEntry} (h : lookupOpcode op = some e) :
    e ∈ instructionTable ∧ e.opcode = op :=
  ⟨List.mem_of_find?_eq_some h, by simpa using List.find?_some h⟩

/-- One row of the table read back: the operand bytes, put after the row's opcode, are the encoding of
the instruction they decode to. -/
theorem decodeOperand_eq_ok {op : Byte} {e : TableEntry} (he : e ∈ instructionTable)
    {bs rest : List Byte} {i : Instr} (h : decodeOperand op e.operation bs = .ok (i, rest)) :
    e.opcode :: bs = encode i ++ rest := by
  simp only [instructionTable, List.mem_cons, List.not_mem_nil, or_false] at he
  obtain rfl | rfl | rfl | rfl | rfl := he
  · match bs, h with
    | lo :: hi :: _, h =>
      cases h
      simp [encode]
  · match bs, h with
    | _ :: _, h => cases h; rfl
  · match bs, h with
    | _ :: _, h => cases h; rfl
  · match bs, h with
    | _ :: _, h => cases h; rfl
  · cases h
    rfl

theorem eq_encode_append_of_decode {bs rest : List Byte} {i : Instr}
    (h : decode bs = .ok (i, rest)) : bs = encode i ++ rest := by
  cases bs with
  | nil => simp [decode] at h
  | cons op bs =>
    simp only [decode] at h
    cases hlook : lookupOpcode op with
    | none => simp [hlook] at h
    | some e =>
      obtain ⟨he, hop⟩ := lookupOpcode_eq_some hlook
      rw [hlook] at h
      rw [← hop]
      exact decodeOperand_eq_ok he h

/-- Settles O2: the encoder is read back row by row of the table, the decoder by its cases. -/
theorem decodeExactlyInvertsEncode : Obligations.DecodeExactlyInvertsEncode := by
  intro bs i rest
  constructor
  · exact eq_encode_append_of_decode
  · rintro rfl
    exact decode_encode_append i rest

/-- Settles O1: each word is the encoding of its instruction. -/
theorem decodeReadsWrittenOutWords : Obligations.DecodeReadsWrittenOutWords :=
  ⟨decode_encode_append (.ldaImm 0x01) [], decode_encode_append (.ldaZp 0x10) [],
    decode_encode_append (.ldaZpx 0xF0) [], decode_encode_append (.jsr 0x1234) [],
    decode_encode_append .nop []⟩

/-! ## Which bytes decode -/

theorem decode_of_unmapped {op : Byte} (h : lookupOpcode op = none) (bs : List Byte) :
    decode (op :: bs) = .error (.unmapped op) := by
  simp only [decode, h]

/-- With two bytes after it, a mapped opcode has all its operand bytes. -/
theorem decode_of_mapped {op : Byte} (h : op ∈ [opJsrAbs, opLdaZp, opLdaImm, opLdaZpx, opNop])
    (b1 b2 : Byte) (rest : List Byte) :
    ∃ i : Instr, i.opcode = op ∧
      decode (op :: b1 :: b2 :: rest) = .ok (i, (op :: b1 :: b2 :: rest).drop i.length) := by
  simp only [List.mem_cons, List.not_mem_nil, or_false] at h
  obtain rfl | rfl | rfl | rfl | rfl := h
  · exact ⟨.jsr (wordOfBytes b2 b1), rfl, rfl⟩
  · exact ⟨.ldaZp b1, rfl, rfl⟩
  · exact ⟨.ldaImm b1, rfl, rfl⟩
  · exact ⟨.ldaZpx b1, rfl, rfl⟩
  · exact ⟨.nop, rfl, rfl⟩

/-- With two bytes after it, an opcode is rejected for being unmapped and for nothing else. -/
theorem lookupOpcode_eq_none_of_decode_error {op b1 b2 : Byte} {rest : List Byte} {e : DecodeError}
    (h : decode (op :: b1 :: b2 :: rest) = .error e) : lookupOpcode op = none := by
  rw [lookupOpcode_eq_none]
  intro hmem
  obtain ⟨i, -, hok⟩ := decode_of_mapped hmem b1 b2 rest
  rw [h] at hok
  cases hok

/-- Settles O3: a mapped opcode with two bytes after it decodes, any other byte is in no row. -/
theorem decodeRejectsExactlyTheUnmapped : Obligations.DecodeRejectsExactlyTheUnmapped := by
  intro op b1 b2 rest
  refine ⟨⟨fun h => ?_, fun h => ?_⟩, fun h => decode_of_mapped h b1 b2 rest⟩
  · exact lookupOpcode_eq_none.1 (lookupOpcode_eq_none_of_decode_error h)
  · exact decode_of_unmapped (lookupOpcode_eq_none.2 h) _

/-! ## Well-formed byte lists -/

theorem wellFormedEncoding_encode (i : Instr) : wellFormedEncoding (encode i) = true := by
  cases i <;> rfl

/-- As many operand bytes as a row's mode has are the operand of an instruction of that row (R66). -/
theorem exists_encode_of_length {e : TableEntry} (he : e ∈ instructionTable) {bs : List Byte}
    (hlen : bs.length + 1 = e.mode.length) : ∃ i : Instr, encode i = e.opcode :: bs := by
  simp only [instructionTable, List.mem_cons, List.not_mem_nil, or_false] at he
  obtain rfl | rfl | rfl | rfl | rfl := he
  · obtain ⟨lo, hi, rfl⟩ := List.length_eq_two.1 (Nat.succ.inj hlen)
    exact ⟨.jsr (wordOfBytes hi lo), by simp [encode]⟩
  · obtain ⟨zp, rfl⟩ := List.length_eq_one_iff.1 (Nat.succ.inj hlen)
    exact ⟨.ldaZp zp, rfl⟩
  · obtain ⟨imm, rfl⟩ := List.length_eq_one_iff.1 (Nat.succ.inj hlen)
    exact ⟨.ldaImm imm, rfl⟩
  · obtain ⟨zp, rfl⟩ := List.length_eq_one_iff.1 (Nat.succ.inj hlen)
    exact ⟨.ldaZpx zp, rfl⟩
  · obtain rfl := List.eq_nil_of_length_eq_zero (Nat.succ.inj hlen)
    exact ⟨.nop, rfl⟩

theorem exists_encode_of_wellFormedEncoding {bs : List Byte} (h : wellFormedEncoding bs = true) :
    ∃ i : Instr, encode i = bs := by
  cases bs with
  | nil => simp [wellFormedEncoding] at h
  | cons op bs =>
    simp only [wellFormedEncoding] at h
    cases hlook : lookupOpcode op with
    | none => simp [hlook] at h
    | some e =>
      obtain ⟨he, rfl⟩ := lookupOpcode_eq_some hlook
      rw [hlook] at h
      exact exists_encode_of_length he (by simpa using h)

/-- Settles O4: an encoding passes the check, and a list that passes is an encoding by its row. -/
theorem wellFormedEncodingsAreEncodings : Obligations.WellFormedEncodingsAreEncodings := by
  intro bs
  constructor
  · exact exists_encode_of_wellFormedEncoding
  · rintro ⟨i, rfl⟩
    exact wellFormedEncoding_encode i

end Sys2Proof

namespace Sys2Proof.Machine

/-! ## The bytes at PC -/

theorem word_add_one_add_one (w : Word) : w + 1 + 1 = w + 2 := BitVec.add_assoc w 1 1

theorem State.fetch_fetch_fst (s : State) : s.fetch.2.fetch.1 = s.memRead (s.pc + 1) := rfl

theorem State.fetch_fetch_fetch_fst (s : State) :
    s.fetch.2.fetch.2.fetch.1 = s.memRead (s.pc + 2) := by
  rw [← word_add_one_add_one]
  rfl

/-- The three bytes at PC begin with the encoding of the instruction decoded there. -/
theorem fetchBytes_of_decodeAtPc {s : State} {i : Instr} {rest : List Byte}
    (h : s.decodeAtPc = .ok (i, rest)) :
    [s.memRead s.pc, s.memRead (s.pc + 1), s.memRead (s.pc + 2)] = encode i ++ rest :=
  eq_encode_append_of_decode h

theorem memRead_pc_of_decodeAtPc {s : State} {i : Instr} {rest : List Byte}
    (h : s.decodeAtPc = .ok (i, rest)) : s.memRead s.pc = i.opcode := by
  have hbytes := congrArg List.head? (fetchBytes_of_decodeAtPc h)
  rwa [List.head?_append, encode_head, List.head?_cons, Option.some_or, Option.some_inj] at hbytes

theorem memRead_pc_of_decodeAtPc_error {s : State} {e : DecodeError}
    (h : s.decodeAtPc = .error e) : lookupOpcode (s.memRead s.pc) = none :=
  lookupOpcode_eq_none_of_decode_error h

theorem operand_eq_memRead {s : State} {op v : Byte} {bs : List Byte}
    (h : [s.memRead s.pc, s.memRead (s.pc + 1), s.memRead (s.pc + 2)] = op :: v :: bs) :
    v = s.memRead (s.pc + 1) := by
  obtain ⟨-, htail⟩ := List.cons.inj h
  exact (List.cons.inj htail).1.symm

/-- Settles O5: the bytes at PC are the encoding, and the fetches read them one after the other. -/
theorem decodedBytesAreTheFetchedBytes : Obligations.DecodedBytesAreTheFetchedBytes := by
  intro s i rest h
  have hbytes := fetchBytes_of_decodeAtPc h
  rw [State.fetch_fetch_fst, State.fetch_fetch_fetch_fst]
  refine ⟨memRead_pc_of_decodeAtPc h, ?_, ?_, ?_, ?_⟩
  · rintro imm rfl
    exact operand_eq_memRead hbytes
  · rintro zp rfl
    exact operand_eq_memRead hbytes
  · rintro zp rfl
    exact operand_eq_memRead hbytes
  · rintro target rfl
    simp only [encode, List.cons_append, List.cons.injEq] at hbytes
    obtain ⟨-, hlo, hhi, -⟩ := hbytes
    rw [hlo, hhi, wordOfBytes_highByte_lowByte]

end Sys2Proof.Machine
end

section
/-! SUPPORT. The cycle deduction (40_dispatch.md R83), the packed status byte (10_state.md R30), the
canonical memory (R32), and what a word write and a push do (20_memory.md R44, R49). -/

namespace Sys2Proof.Machine

/-- Settles O8: natural-number subtraction saturates, and so does its composition. -/
theorem consumeSaturatesAndComposes : Obligations.ConsumeSaturatesAndComposes := by
  intro s m n
  refine ⟨State.consume_eq s n, State.consume_consume s m n, fun hle => ?_⟩
  rw [State.consume_budget, Nat.sub_eq_zero_of_le hle]

/-! ## The packed status byte -/

theorem Flags.getLsbD_packed (p : Flags) (i : Nat) :
    p.packed.getLsbD i = [p.c, p.z, p.i, p.d, p.b, p.v, p.n, false].getD i false :=
  BitVec.getLsbD_ofBoolListLE

theorem Flags.getLsbD_packed_bit (p : Flags) (f : Flag) : p.packed.getLsbD f.bit = p.get f := by
  rw [Flags.getLsbD_packed]
  cases f <;> rfl

theorem Flags.ofPacked_packed (p : Flags) : Flags.ofPacked p.packed = p := by
  simp only [Flags.ofPacked, Flags.getLsbD_packed]
  rfl

/-- Settles O7: the packed byte is the list of its bits, lowest first. -/
theorem packedStatusBitPositions : Obligations.PackedStatusBitPositions := fun p =>
  ⟨Flags.ofPacked_packed p, Flags.getLsbD_packed p 7, Flags.getLsbD_packed_bit p⟩

/-! ## The canonical form is unique -/

theorem Memory.read_of_mem {m : Memory} (hsorted : m.Pairwise (fun c d => c.1 < d.1)) {c : Host.Cell}
    (hc : c ∈ m) : m.read c.1 = c.2 := by
  induction m with
  | nil => cases hc
  | cons d m ih =>
    obtain ⟨hlt, hsorted⟩ := List.pairwise_cons.1 hsorted
    simp only [Memory.read]
    rcases List.mem_cons.1 hc with rfl | hc
    · rw [if_pos rfl]
    · rw [if_neg (Nat.ne_of_lt (hlt c hc)), ih hsorted hc]

theorem Memory.mem_of_read {m : Memory} {addr : Nat} (h : m.read addr ≠ filler) :
    (addr, m.read addr) ∈ m := by
  induction m with
  | nil => exact absurd rfl h
  | cons d m ih =>
    simp only [Memory.read] at h ⊢
    split at h
    · next heq => simp [← heq]
    · next hne =>
      rw [if_neg hne]
      exact List.mem_cons_of_mem d (ih h)

/-- A canonical memory lists exactly the cells that do not read as the filler. -/
theorem Memory.mem_iff_read {m : Memory} (hm : m.wf) (c : Host.Cell) :
    c ∈ m ↔ c.1 < Config.memSize ∧ c.2 ≠ filler ∧ m.read c.1 = c.2 := by
  obtain ⟨hsorted, hcells⟩ := hm
  constructor
  · intro hc
    obtain ⟨hlt, hne⟩ := hcells c hc
    exact ⟨hlt, hne, Memory.read_of_mem hsorted hc⟩
  · rintro ⟨-, hne, hread⟩
    have hmem := Memory.mem_of_read (m := m) (addr := c.1) (hread ▸ hne)
    rwa [hread] at hmem

/-- Two lists in rising order with the same cells are equal. -/
theorem Memory.eq_of_mem_iff {m m' : Memory} (hm : m.Pairwise (fun c d => c.1 < d.1))
    (hm' : m'.Pairwise (fun c d => c.1 < d.1)) (h : ∀ c, c ∈ m ↔ c ∈ m') : m = m' :=
  have : Std.Irrefl fun c d : Host.Cell => c.1 < d.1 := ⟨fun c => Nat.lt_irrefl c.1⟩
  have : Std.Antisymm fun c d : Host.Cell => c.1 < d.1 :=
    ⟨fun _ _ hcd hdc => absurd hcd (Nat.lt_asymm hdc)⟩
  List.Pairwise.eq_of_mem_iff hm hm' h

/-- Settles O11: what is listed is told by what is read, and the order fixes the list. -/
theorem canonicalMemoryIsUnique : Obligations.CanonicalMemoryIsUnique := by
  intro m m' hm hm' hread
  refine Memory.eq_of_mem_iff hm.1 hm'.1 fun c => ?_
  rw [Memory.mem_iff_read hm, Memory.mem_iff_read hm']
  refine and_congr_right fun hlt => ?_
  have haddr : (BitVec.ofNat 16 c.1).toNat = c.1 := Nat.mod_eq_of_lt hlt
  rw [← haddr, hread (BitVec.ofNat 16 c.1)]

/-! ## The word write -/

theorem State.memRead_writeWord_hi (s : State) (lo hi value : Word) :
    (s.writeWord lo hi value).memRead hi = highByte value :=
  State.memRead_memWrite_self (s.memWrite lo (lowByte value)) hi (highByte value)

theorem State.memRead_writeWord_lo (s : State) {lo hi : Word} (h : lo ≠ hi) (value : Word) :
    (s.writeWord lo hi value).memRead lo = lowByte value := by
  calc (s.writeWord lo hi value).memRead lo
      = (s.memWrite lo (lowByte value)).memRead lo := State.memRead_memWrite_ne _ h (highByte value)
    _ = lowByte value := State.memRead_memWrite_self s lo (lowByte value)

theorem State.memRead_writeWord_ne (s : State) {lo hi addr : Word} (hlo : addr ≠ lo) (hhi : addr ≠ hi)
    (value : Word) : (s.writeWord lo hi value).memRead addr = s.memRead addr := by
  calc (s.writeWord lo hi value).memRead addr
      = (s.memWrite lo (lowByte value)).memRead addr := State.memRead_memWrite_ne _ hhi (highByte value)
    _ = s.memRead addr := State.memRead_memWrite_ne s hlo (lowByte value)

theorem State.writeWord_frame (s : State) (lo hi value : Word) :
    s.writeWord lo hi value =
      { s with mem := (s.writeWord lo hi value).mem, budget := s.budget - 2 } :=
  State.consume_eq ((s.memWrite lo (lowByte value)).memWrite hi (highByte value)) wordWriteCycles

/-- Settles O12: the reads of the two addresses and of any other, and the frame. -/
theorem writeWordStoresLittleEndian : Obligations.WriteWordStoresLittleEndian := by
  intro s lo hi value t
  refine ⟨fun hne => State.memRead_writeWord_lo s hne value, State.memRead_writeWord_hi s lo hi value,
    fun hne => ?_, fun addr hlo hhi => State.memRead_writeWord_ne s hlo hhi value,
    State.writeWord_frame s lo hi value⟩
  rw [State.memRead_writeWord_hi s lo hi value, State.memRead_writeWord_lo s hne value,
    wordOfBytes_highByte_lowByte]

/-! ## The push -/

theorem stackAddr_ne_stackAddr_succ (sp : Byte) : stackAddr sp ≠ stackAddr (sp + 1) := by
  intro h
  have hsp := stackAddr_injective h
  bv_omega

theorem stackAddr_eq_ofNat (o : Byte) : stackAddr o = BitVec.ofNat 16 (0x0100 + o.toNat) := by
  rw [← stackAddr_toNat, BitVec.ofNat_toNat, BitVec.setWidth_eq]

theorem State.memRead_pushWord_lo (s : State) (value : Word) :
    (s.pushWord value).memRead (stackAddr s.sp) = lowByte value :=
  State.memRead_writeWord_lo s (stackAddr_ne_stackAddr_succ s.sp) value

theorem State.memRead_pushWord_hi (s : State) (value : Word) :
    (s.pushWord value).memRead (stackAddr (s.sp + 1)) = highByte value :=
  State.memRead_writeWord_hi s (stackAddr s.sp) (stackAddr (s.sp + 1)) value

theorem State.memRead_pushWord_ne (s : State) {addr : Word} (hlo : addr ≠ stackAddr s.sp)
    (hhi : addr ≠ stackAddr (s.sp + 1)) (value : Word) :
    (s.pushWord value).memRead addr = s.memRead addr :=
  State.memRead_writeWord_ne s hlo hhi value

/-- Settles O13: the two slots as numbers, the reads of them and of any other address, and the frame. -/
theorem pushWritesTwoSlotsOfTheStackPage : Obligations.PushWritesTwoSlotsOfTheStackPage := by
  intro s value t lo hi
  have hlo : lo = stackAddr s.sp := (stackAddr_eq_ofNat s.sp).symm
  have hhi : hi = stackAddr (s.sp + 1) := (stackAddr_eq_ofNat (s.sp + 1)).symm
  rw [hlo, hhi]
  exact ⟨State.memRead_pushWord_lo s value, State.memRead_pushWord_hi s value,
    fun addr hlo hhi => State.memRead_pushWord_ne s hlo hhi value, BitVec.toNat_add s.sp jsrSpStep,
    State.pushWord_eq s value⟩

end Sys2Proof.Machine
end

section
/-! SUPPORT. What each instruction answers in the state after the opcode fetch (41_load.md, 42_subroutine.md,
43_nop.md), as one equation each, and all that an instruction can do. -/

namespace Sys2Proof.Machine

/-! ## The loads -/

/-- One of the three forms of LDA (41_load.md). -/
def IsLoad (i : Instr) : Prop := (∃ v, i = .ldaImm v) ∨ (∃ z, i = .ldaZp z) ∨ (∃ z, i = .ldaZpx z)

/-- What a load answers when its operand is `v` and its fetch and resolution take `cycles`
(R100 to R102); `exec_ldaImm`, `exec_ldaZp` and `exec_ldaZpx` tie it to the model. -/
def State.afterLoad (s : State) (v : Byte) (cycles : Nat) : State :=
  { s with a := v, pc := s.pc + 1, p := s.p.setZN v, budget := s.budget - cycles }

@[simp] theorem State.afterLoad_a (s : State) (v : Byte) (n : Nat) : (s.afterLoad v n).a = v := rfl
@[simp] theorem State.afterLoad_x (s : State) (v : Byte) (n : Nat) : (s.afterLoad v n).x = s.x := rfl
@[simp] theorem State.afterLoad_y (s : State) (v : Byte) (n : Nat) : (s.afterLoad v n).y = s.y := rfl
@[simp] theorem State.afterLoad_sp (s : State) (v : Byte) (n : Nat) : (s.afterLoad v n).sp = s.sp := rfl
@[simp] theorem State.afterLoad_pc (s : State) (v : Byte) (n : Nat) : (s.afterLoad v n).pc = s.pc + 1 := rfl
@[simp] theorem State.afterLoad_p (s : State) (v : Byte) (n : Nat) : (s.afterLoad v n).p = s.p.setZN v := rfl
@[simp] theorem State.afterLoad_mem (s : State) (v : Byte) (n : Nat) : (s.afterLoad v n).mem = s.mem := rfl
@[simp] theorem State.afterLoad_budget (s : State) (v : Byte) (n : Nat) :
    (s.afterLoad v n).budget = s.budget - n := rfl
@[simp] theorem State.afterLoad_run (s : State) (v : Byte) (n : Nat) : (s.afterLoad v n).run = s.run := rfl

/-- The result of a load with SetZN written out (R28). -/
theorem State.afterLoad_eq (s : State) (v : Byte) (cycles : Nat) :
    s.afterLoad v cycles =
      { s with a := v, pc := s.pc + 1, p := { s.p with z := decide (v = 0), n := v.getLsbD 7 },
               budget := s.budget - cycles } := by
  rw [State.afterLoad, Flags.setZN_eq]

theorem exec_ldaImm (imm : Byte) (s : State) : exec (.ldaImm imm) s = .next (s.afterLoad imm 1) := by
  have hload : exec (.ldaImm imm) s = loadA (resolveImmediate imm s) := rfl
  rw [hload, resolveImmediate_spec, loadA_eq]
  rfl

theorem exec_ldaZp (zp : Byte) (s : State) :
    exec (.ldaZp zp) s = .next (s.afterLoad (s.memRead (zeroPageAddr zp)) 2) := by
  have hload : exec (.ldaZp zp) s = loadA (resolveZeroPage zp s) := rfl
  rw [hload, resolveZeroPage_spec, loadA_eq]
  rfl

theorem exec_ldaZpx (zp : Byte) (s : State) :
    exec (.ldaZpx zp) s = .next (s.afterLoad (s.memRead (zeroPageXAddr zp s.x)) 3) := by
  have hload : exec (.ldaZpx zp) s = loadA (resolveZeroPageX zp s) := rfl
  rw [hload, resolveZeroPageX_spec, loadA_eq, zeroPageXAddr_eq_ofNat]
  rfl

/-- Settles O15: the equations of the three loads with SetZN written out. -/
theorem loadsCompleteWithTheirResult : Obligations.LoadsCompleteWithTheirResult := by
  intro s loaded
  have hloaded : ∀ v cost, s.afterLoad v cost = loaded v cost := State.afterLoad_eq s
  refine ⟨fun imm => ?_, fun zp => ?_, fun zp => ?_⟩
  · rw [exec_ldaImm, hloaded]
  · rw [exec_ldaZp, hloaded]
    rfl
  · rw [exec_ldaZpx, hloaded]
    rfl

/-- What the three loads have in common: only the byte loaded and the cost differ, and the cost is the
table's without the opcode fetch (R93). -/
theorem exec_of_isLoad {i : Instr} (hi : IsLoad i) (s : State) :
    ∃ v, exec i s = .next (s.afterLoad v (i.cycles - 1)) := by
  obtain ⟨imm, rfl⟩ | ⟨zp, rfl⟩ | ⟨zp, rfl⟩ := hi
  · exact ⟨_, exec_ldaImm imm s⟩
  · exact ⟨_, exec_ldaZp zp s⟩
  · exact ⟨_, exec_ldaZpx zp s⟩

/-- Settles O18: the fields that the result of a load keeps. -/
theorem loadsFrame : Obligations.LoadsFrame := by
  intro i s t hi h
  obtain ⟨v, hv⟩ := exec_of_isLoad hi s
  obtain rfl : s.afterLoad v (i.cycles - 1) = t := Host.Outcome.next.inj (hv.symm.trans h)
  exact ⟨rfl, rfl, rfl, rfl, rfl, rfl, rfl, rfl, rfl, fun _ => rfl⟩

/-! ## JSR -/

/-- What JSR answers (R110): the push of PC + 1, then the jump, five cycles in all; `exec_jsr` ties it
to the model. -/
def State.afterJsr (s : State) (target : Word) : State :=
  { s with pc := target, sp := s.sp + 2, mem := (s.pushWord (s.pc + 1)).mem, budget := s.budget - 5 }

@[simp] theorem State.afterJsr_a (s : State) (w : Word) : (s.afterJsr w).a = s.a := rfl
@[simp] theorem State.afterJsr_x (s : State) (w : Word) : (s.afterJsr w).x = s.x := rfl
@[simp] theorem State.afterJsr_y (s : State) (w : Word) : (s.afterJsr w).y = s.y := rfl
@[simp] theorem State.afterJsr_sp (s : State) (w : Word) : (s.afterJsr w).sp = s.sp + 2 := rfl
@[simp] theorem State.afterJsr_pc (s : State) (w : Word) : (s.afterJsr w).pc = w := rfl
@[simp] theorem State.afterJsr_p (s : State) (w : Word) : (s.afterJsr w).p = s.p := rfl
@[simp] theorem State.afterJsr_mem (s : State) (w : Word) :
    (s.afterJsr w).mem = (s.pushWord (s.pc + 1)).mem := rfl
@[simp] theorem State.afterJsr_budget (s : State) (w : Word) : (s.afterJsr w).budget = s.budget - 5 := rfl
@[simp] theorem State.afterJsr_run (s : State) (w : Word) : (s.afterJsr w).run = s.run := rfl

theorem State.memRead_afterJsr (s : State) (target addr : Word) :
    (s.afterJsr target).memRead addr = (s.pushWord (s.pc + 1)).memRead addr :=
  State.memRead_congr (State.afterJsr_mem s target) addr

theorem State.memRead_afterJsr_ne (s : State) (target : Word) {addr : Word}
    (hlo : addr ≠ stackAddr s.sp) (hhi : addr ≠ stackAddr (s.sp + 1)) :
    (s.afterJsr target).memRead addr = s.memRead addr := by
  rw [State.memRead_afterJsr, State.memRead_pushWord_ne s hlo hhi]

/-- The push sees the state after the two operand fetches: PC - 1 there is PC + 1 here, and the memory
and SP are the same. -/
theorem exec_jsr (target : Word) (s : State) : exec (.jsr target) s = .next (s.afterJsr target) := by
  have hret : s.advance.advance.pc - 1 = s.pc + 1 := BitVec.add_sub_cancel (s.pc + 1) 1
  have hjsr : exec (.jsr target) s =
    .next (((s.advance.advance.pushWord (s.advance.advance.pc - 1)).withPc target).consume
      jsrInternalCycles) := rfl
  rw [hjsr, hret, State.consume_eq, State.afterJsr, State.pushWord_eq, State.pushWord_eq,
    State.advance_advance, State.withPc, Nat.sub_sub, Nat.sub_sub]
  rfl

/-- Settles O16: the equation of JSR, and the reads of the push it holds. -/
theorem jsrCompletesWithItsResult : Obligations.JsrCompletesWithItsResult := by
  intro s target
  refine ⟨s.afterJsr target, exec_jsr target s, rfl, ?_, ?_,
    fun addr => State.memRead_afterJsr_ne s target⟩
  · rw [State.memRead_afterJsr, State.memRead_pushWord_lo]
  · rw [State.memRead_afterJsr, State.memRead_pushWord_hi]

/-- Settles O19: the fields that the result of JSR keeps, and the frame of its push. -/
theorem jsrFrame : Obligations.JsrFrame := by
  intro target s t h
  obtain rfl : s.afterJsr target = t := Host.Outcome.next.inj ((exec_jsr target s).symm.trans h)
  refine ⟨rfl, rfl, rfl, rfl, rfl, ?_⟩
  rintro lo hi rfl rfl addr hlo hhi
  exact State.memRead_afterJsr_ne s target hlo hhi

/-! ## NOP -/

theorem exec_nop (s : State) : exec .nop s = .next (s.consume 1) := rfl

/-- Settles O17: the deduction of NOP's internal cycle. -/
theorem nopCompletesWithItsResult : Obligations.NopCompletesWithItsResult := fun s => by
  rw [exec_nop, State.consume_eq]

/-- Settles O20: a deduction keeps all but the budget. -/
theorem nopFrame : Obligations.NopFrame := by
  intro s t h
  obtain rfl : s.consume 1 = t := Host.Outcome.next.inj ((exec_nop s).symm.trans h)
  exact ⟨rfl, rfl, rfl, rfl, rfl, rfl, rfl, fun _ => rfl⟩

/-! ## Every instruction -/

/-- An instruction is a load, JSR or NOP. -/
theorem isLoad_or_jsr_or_nop (i : Instr) : IsLoad i ∨ (∃ target, i = .jsr target) ∨ i = .nop := by
  cases i with
  | jsr target => exact .inr (.inl ⟨target, rfl⟩)
  | ldaZp zp => exact .inl (.inr (.inl ⟨zp, rfl⟩))
  | ldaImm imm => exact .inl (.inl ⟨imm, rfl⟩)
  | ldaZpx zp => exact .inl (.inr (.inr ⟨zp, rfl⟩))
  | nop => exact .inr (.inr rfl)

theorem IsLoad.length_eq_two {i : Instr} (hi : IsLoad i) : i.length = 2 := by
  obtain ⟨_, rfl⟩ | ⟨_, rfl⟩ | ⟨_, rfl⟩ := hi <;> rfl

/-- Everything an instruction can answer. -/
theorem exec_cases {i : Instr} {s t : State} (h : exec i s = .next t) :
    (IsLoad i ∧ ∃ v, t = s.afterLoad v (i.cycles - 1)) ∨
    (∃ target, i = .jsr target ∧ t = s.afterJsr target) ∨
    (i = .nop ∧ t = s.consume 1) := by
  obtain hload | ⟨target, rfl⟩ | rfl := isLoad_or_jsr_or_nop i
  · obtain ⟨v, hv⟩ := exec_of_isLoad hload s
    exact .inl ⟨hload, v, Host.Outcome.next.inj (h.symm.trans hv)⟩
  · exact .inr (.inl ⟨target, rfl, Host.Outcome.next.inj (h.symm.trans (exec_jsr target s))⟩)
  · exact .inr (.inr ⟨rfl, Host.Outcome.next.inj (h.symm.trans (exec_nop s))⟩)

/-- Settles O22: each instruction has an equation that names its next state. -/
theorem everyInstructionCompletes : Obligations.EveryInstructionCompletes := by
  intro i s
  obtain hload | ⟨target, rfl⟩ | rfl := isLoad_or_jsr_or_nop i
  · obtain ⟨v, hv⟩ := exec_of_isLoad hload s
    exact ⟨_, hv⟩
  · exact ⟨_, exec_jsr target s⟩
  · exact ⟨_, exec_nop s⟩

/-- The cycles an instruction takes after its opcode fetch are the rest of the table's cost (R93). -/
theorem exec_budget {i : Instr} {s t : State} (h : exec i s = .next t) :
    t.budget = s.budget - (i.cycles - 1) := by
  obtain ⟨-, v, rfl⟩ | ⟨target, rfl, rfl⟩ | ⟨rfl, rfl⟩ := exec_cases h
  · exact State.afterLoad_budget s v (i.cycles - 1)
  · rfl
  · exact State.consume_budget s 1

theorem exec_run {i : Instr} {s t : State} (h : exec i s = .next t) : t.run = s.run := by
  obtain ⟨-, v, rfl⟩ | ⟨target, rfl, rfl⟩ | ⟨rfl, rfl⟩ := exec_cases h <;> rfl

theorem two_le_cycles (i : Instr) : 2 ≤ i.cycles := by
  cases i <;> exact Nat.le_of_ble_eq_true rfl

end Sys2Proof.Machine
end

section
/-! SUPPORT. What one step does in each execute-loop state (40_dispatch.md R81, R82; 60_exceptions.md
R131 to R134, R138), and the steps of the instructions as a whole. -/

namespace Sys2Proof.Machine

/-! ## Steps that fetch nothing -/

theorem step_of_idle {s : State} (h : s.run = .idle) : step s = .next s := by
  simp only [step, h, stepIdle]

theorem step_of_faulted {s : State} {byte : Byte} {pc : Word} (h : s.run = .faulted byte pc) :
    step s = .fault (.invalidOpcode byte pc) := by
  simp only [step, h, stepFaulted]

theorem step_of_no_budget {s : State} (hdisp : s.run = .dispatching) (hb : s.budget = 0) :
    step s = .next (s.withRun .idle) := by
  simp only [step, hdisp, stepDispatching, if_pos hb]

/-- Settles O30: the arms of Idle and of Faulted. -/
theorem idleWaitsAndFaultedStops : Obligations.IdleWaitsAndFaultedStops := fun _ =>
  ⟨step_of_idle, fun _ _ => step_of_faulted⟩

theorem notFaulted_iff {s : State} : s.notFaulted = true ↔ ∀ byte pc, s.run ≠ .faulted byte pc := by
  cases hrun : s.run <;> simp [State.notFaulted, hrun]

theorem exists_faulted_of_not_notFaulted {s : State} (h : ¬ s.notFaulted = true) :
    ∃ byte pc, s.run = .faulted byte pc := by
  simpa [notFaulted_iff] using h

/-- Settles O31: Idle waits, and Dispatching without budget ends the loop. -/
theorem noBudgetNoFetch : Obligations.NoBudgetNoFetch := by
  intro s hb hnf
  cases hrun : s.run with
  | idle => rw [step_of_idle hrun, ← hrun]
  | dispatching => exact step_of_no_budget hrun hb
  | faulted byte pc => exact absurd hrun (notFaulted_iff.1 hnf byte pc)

/-! ## Steps that fetch -/

theorem step_of_decodeAtPc {s : State} {i : Instr} {rest : List Byte} (hrun : s.Running)
    (hdec : s.decodeAtPc = .ok (i, rest)) : step s = endStepOutcome (exec i s.advance) := by
  rw [step_of_running hrun, fetchExecute_of_decodeAtPc hdec]

theorem step_of_decodeAtPc_error {s : State} {e : DecodeError} (hrun : s.Running)
    (hdec : s.decodeAtPc = .error e) :
    step s = .next (s.advance.takeInvalidOpcode (s.memRead s.pc) s.pc) := by
  rw [step_of_running hrun]
  simp only [fetchExecute, hdec, State.fetch_fst, State.fetch_snd]

/-- No instruction stops, so a step that decodes one answers the end of the step after it. -/
theorem exists_step_of_decodeAtPc {s : State} {i : Instr} {rest : List Byte} (hrun : s.Running)
    (hdec : s.decodeAtPc = .ok (i, rest)) :
    ∃ u, exec i s.advance = .next u ∧ step s = .next u.endStep := by
  obtain ⟨u, hu⟩ := everyInstructionCompletes i s.advance
  refine ⟨u, hu, ?_⟩
  rw [step_of_decodeAtPc hrun hdec, hu]
  rfl

/-- Settles O23: the state after the opcode fetch is the one the statement writes out. -/
theorem stepRunsTheDecodedInstruction : Obligations.StepRunsTheDecodedInstruction := by
  intro s i rest hrun hdec
  rw [← State.advance_eq, step_of_decodeAtPc hrun hdec]
  exact ⟨fun _ h => congrArg endStepOutcome h, fun _ h => congrArg endStepOutcome h,
    fun _ h => congrArg endStepOutcome h⟩

/-! ## The instructions as whole steps -/

/-- A load from the opcode's own address on. -/
theorem State.advance_afterLoad (s : State) (v : Byte) (cycles : Nat) :
    s.advance.afterLoad v cycles =
      { s with a := v, pc := s.pc + 2, p := { s.p with z := decide (v = 0), n := v.getLsbD 7 },
               budget := s.budget - (1 + cycles) } := by
  rw [State.afterLoad_eq, State.advance_eq, word_add_one_add_one, Nat.sub_sub]

/-- JSR from the opcode's own address on: the pushed word is the address of its last byte. -/
theorem State.advance_afterJsr (s : State) (target : Word) :
    s.advance.afterJsr target =
      { s with pc := target, sp := s.sp + 2, mem := (s.pushWord (s.pc + 2)).mem,
               budget := s.budget - 6 } := by
  simp only [State.afterJsr, State.pushWord_eq, State.advance_eq, word_add_one_add_one, Nat.sub_sub]

theorem decodeAtPc_of_opLdaZp {s : State} (hop : s.memRead s.pc = opLdaZp) :
    s.decodeAtPc = .ok (.ldaZp (s.memRead (s.pc + 1)), [s.memRead (s.pc + 2)]) := by
  rw [State.decodeAtPc, State.fetchBytes, hop]
  rfl

theorem decodeAtPc_of_opLdaZpx {s : State} (hop : s.memRead s.pc = opLdaZpx) :
    s.decodeAtPc = .ok (.ldaZpx (s.memRead (s.pc + 1)), [s.memRead (s.pc + 2)]) := by
  rw [State.decodeAtPc, State.fetchBytes, hop]
  rfl

theorem decodeAtPc_of_opJsrAbs {s : State} (hop : s.memRead s.pc = opJsrAbs) :
    s.decodeAtPc = .ok (.jsr (wordOfBytes (s.memRead (s.pc + 2)) (s.memRead (s.pc + 1))), []) := by
  rw [State.decodeAtPc, State.fetchBytes, hop]
  rfl

theorem decodeAtPc_of_opNop {s : State} (hop : s.memRead s.pc = opNop) :
    s.decodeAtPc = .ok (.nop, [s.memRead (s.pc + 1), s.memRead (s.pc + 2)]) := by
  rw [State.decodeAtPc, State.fetchBytes, hop]
  rfl

theorem decodeAtPc_of_unmapped {s : State} (hop : lookupOpcode (s.memRead s.pc) = none) :
    s.decodeAtPc = .error (.unmapped (s.memRead s.pc)) :=
  decode_of_unmapped hop _

theorem zeroPageAddr_eq_ofNat (zp : Byte) : zeroPageAddr zp = BitVec.ofNat 16 zp.toNat :=
  (BitVec.ofNat_toNat 16 zp).symm

/-- Settles O25: A5 at PC decodes to LDA zero page of the byte after it; its address is that byte. -/
theorem ldaZeroPageStep : Obligations.LdaZeroPageStep := by
  intro s hrun hop
  have hexec := exec_ldaZp (s.memRead (s.pc + 1)) s.advance
  rw [State.advance_afterLoad, zeroPageAddr_eq_ofNat] at hexec
  exact step_of_exec_next hrun (decodeAtPc_of_opLdaZp hop) hexec hrun.1

/-- Settles O26: B5 at PC decodes to LDA zero page,X of the byte after it; the sum wraps in page 0. -/
theorem ldaZeroPageXStep : Obligations.LdaZeroPageXStep := by
  intro s hrun hop
  have hexec := exec_ldaZpx (s.memRead (s.pc + 1)) s.advance
  rw [State.advance_afterLoad, zeroPageXAddr_eq_ofNat] at hexec
  exact step_of_exec_next hrun (decodeAtPc_of_opLdaZpx hop) hexec hrun.1

/-- Settles O28: EA at PC decodes to NOP, whose internal cycle follows the opcode fetch. -/
theorem nopStep : Obligations.NopStep := by
  intro s hrun hop
  have hexec := exec_nop s.advance
  rw [State.advance_consume] at hexec
  exact step_of_exec_next hrun (decodeAtPc_of_opNop hop) hexec hrun.1

/-- Settles O27: 20 at PC decodes to JSR of the word after it, and the push is read back from its two
slots. -/
theorem jsrStep : Obligations.JsrStep := by
  intro s hrun hop
  have hexec := exec_jsr (wordOfBytes (s.memRead (s.pc + 2)) (s.memRead (s.pc + 1))) s.advance
  rw [State.advance_afterJsr] at hexec
  refine ⟨_, step_of_exec_next hrun (decodeAtPc_of_opJsrAbs hop) hexec hrun.1, rfl, ?_, ?_⟩
  · calc wordOfBytes ((s.pushWord (s.pc + 2)).memRead (stackAddr (s.sp + 1)))
          ((s.pushWord (s.pc + 2)).memRead (stackAddr s.sp))
        = wordOfBytes (highByte (s.pc + 2)) (lowByte (s.pc + 2)) := by
          rw [State.memRead_pushWord_hi, State.memRead_pushWord_lo]
      _ = s.pc + 2 := wordOfBytes_highByte_lowByte (s.pc + 2)
  · exact fun addr hlo hhi => State.memRead_pushWord_ne s hlo hhi (s.pc + 2)

/-- Settles O29: a byte in no row of the table does not decode. -/
theorem unmappedOpcodeStepTakesInvalidOpcode : Obligations.UnmappedOpcodeStepTakesInvalidOpcode := by
  intro s hrun hop
  rw [step_of_decodeAtPc_error hrun (decodeAtPc_of_unmapped (lookupOpcode_eq_none.2 hop)),
    State.advance_eq]
  rfl

/-! ## PC and cycles of a running step -/

/-- Settles O32: an instruction is a load, JSR or NOP, and each has its own result; an unmapped opcode
leaves what the opcode fetch leaves. -/
theorem stepMovesPcByLengthOrToTarget : Obligations.StepMovesPcByLengthOrToTarget := by
  intro s t hrun hstep
  refine ⟨fun target rest hdec => ?_, fun i rest hdec hjsr => ?_, fun e hdec => ?_⟩
  · rw [step_of_decodeAtPc hrun hdec, exec_jsr] at hstep
    obtain rfl : (s.advance.afterJsr target).endStep = t := Host.Outcome.next.inj hstep
    simp
  · obtain ⟨u, hexec, hu⟩ := exists_step_of_decodeAtPc hrun hdec
    obtain rfl : u.endStep = t := Host.Outcome.next.inj (hu.symm.trans hstep)
    obtain ⟨hload, v, rfl⟩ | ⟨target, rfl, -⟩ | ⟨rfl, rfl⟩ := exec_cases hexec
    · rw [hload.length_eq_two]
      simpa using word_add_one_add_one s.pc
    · exact absurd rfl (hjsr target)
    · simp [show Instr.nop.length = 1 from rfl]
  · rw [step_of_decodeAtPc_error hrun hdec] at hstep
    obtain rfl := Host.Outcome.next.inj hstep
    exact ⟨rfl, rfl, rfl⟩

theorem runAfter_eq_dispatching_iff {budget : Nat} : runAfter budget = .dispatching ↔ 0 < budget := by
  simp [runAfter, Nat.pos_iff_ne_zero]

theorem runAfter_eq_idle_iff {budget : Nat} : runAfter budget = .idle ↔ budget = 0 := by
  simp [runAfter]

theorem runAfter_ne_faulted (budget : Nat) (byte : Byte) (pc : Word) :
    runAfter budget ≠ .faulted byte pc := by
  unfold runAfter
  split <;> simp

/-- Settles O33: the opcode fetch and the instruction together take the table's cycles, and the end of
the step looks at what is left. -/
theorem stepCostsTheTableCycles : Obligations.StepCostsTheTableCycles := by
  intro s i rest hrun hdec
  obtain ⟨u, hexec, hstep⟩ := exists_step_of_decodeAtPc hrun hdec
  have hbudget : u.budget = s.budget - i.cycles := by
    have hcycles := two_le_cycles i
    rw [exec_budget hexec, State.advance_budget]
    omega
  have hdisp : u.run = .dispatching := (exec_run hexec).trans hrun.1
  have hrun' : u.endStep.run = runAfter (s.budget - i.cycles) := by
    rw [State.endStep_of_dispatching hdisp, hbudget]
  refine ⟨two_le_cycles i, u.endStep, hstep, (State.endStep_budget u).trans hbudget, ?_, ?_⟩
  · rw [hrun', runAfter_eq_dispatching_iff, tsub_pos_iff_lt]
  · rw [hrun', runAfter_eq_idle_iff, tsub_eq_zero_iff_le]

end Sys2Proof.Machine
end

section
/-! SUPPORT. What every step keeps: the frame (10_state.md R22, R23, R27, 20_memory.md R48), the exclusion
of Z and N (R28), and the invariant of the machine (R32, R34). -/

namespace Sys2Proof.Machine

/-! ## The frame of every step -/

/-- What neither a step nor Execute ever writes: X, Y, the flags C, I, D, B and V, and memory outside the
stack page (R22, R23, R27, R48). -/
structure State.KeepsFrame (s t : State) : Prop where
  x : t.x = s.x
  y : t.y = s.y
  c : t.p.c = s.p.c
  i : t.p.i = s.p.i
  d : t.p.d = s.p.d
  b : t.p.b = s.p.b
  v : t.p.v = s.p.v
  mem : ∀ addr : Word, addr.toNat < 0x0100 ∨ 0x01FF < addr.toNat → t.memRead addr = s.memRead addr

/-- Equal X, Y, flags and memory are more than the frame asks. -/
theorem State.KeepsFrame.of_eq {s t : State} (hx : t.x = s.x) (hy : t.y = s.y) (hp : t.p = s.p)
    (hm : t.mem = s.mem) : s.KeepsFrame t where
  x := hx
  y := hy
  c := congrArg Flags.c hp
  i := congrArg Flags.i hp
  d := congrArg Flags.d hp
  b := congrArg Flags.b hp
  v := congrArg Flags.v hp
  mem addr _ := State.memRead_congr hm addr

theorem State.KeepsFrame.refl (s : State) : s.KeepsFrame s := .of_eq rfl rfl rfl rfl

theorem State.KeepsFrame.trans {s t u : State} (hst : s.KeepsFrame t) (htu : t.KeepsFrame u) :
    s.KeepsFrame u where
  x := htu.x.trans hst.x
  y := htu.y.trans hst.y
  c := htu.c.trans hst.c
  i := htu.i.trans hst.i
  d := htu.d.trans hst.d
  b := htu.b.trans hst.b
  v := htu.v.trans hst.v
  mem addr haddr := (htu.mem addr haddr).trans (hst.mem addr haddr)

theorem ne_stackAddr_of_outside {addr : Word} (haddr : addr.toNat < 0x0100 ∨ 0x01FF < addr.toNat)
    (o : Byte) : addr ≠ stackAddr o := by
  rintro rfl
  rw [stackAddr_toNat] at haddr
  omega

theorem State.keepsFrame_afterLoad (s : State) (v : Byte) (n : Nat) : s.KeepsFrame (s.afterLoad v n) :=
  ⟨rfl, rfl, rfl, rfl, rfl, rfl, rfl, fun _ _ => rfl⟩

/-- The two slots of the push lie in the stack page. -/
theorem State.keepsFrame_afterJsr (s : State) (target : Word) : s.KeepsFrame (s.afterJsr target) :=
  ⟨rfl, rfl, rfl, rfl, rfl, rfl, rfl, fun _ haddr => State.memRead_afterJsr_ne s target
    (ne_stackAddr_of_outside haddr s.sp) (ne_stackAddr_of_outside haddr (s.sp + 1))⟩

theorem exec_keepsFrame {i : Instr} {s t : State} (h : exec i s = .next t) : s.KeepsFrame t := by
  obtain ⟨-, v, rfl⟩ | ⟨target, -, rfl⟩ | ⟨-, rfl⟩ := exec_cases h
  · exact State.keepsFrame_afterLoad s v _
  · exact State.keepsFrame_afterJsr s target
  · exact .of_eq rfl rfl rfl rfl

theorem step_keepsFrame {s t : State} (h : step s = .next t) : s.KeepsFrame t := by
  obtain ⟨-, rfl⟩ | ⟨-, -, rfl⟩ | ⟨-, -, -, rfl⟩ | ⟨-, -, i, rest, u, -, hexec, rfl⟩ := step_cases h
  · exact .refl t
  · exact .of_eq rfl rfl rfl rfl
  · exact .of_eq rfl rfl rfl rfl
  · have hadvance : s.KeepsFrame s.advance := .of_eq rfl rfl rfl rfl
    have hend : u.KeepsFrame u.endStep :=
      .of_eq u.endStep_x u.endStep_y u.endStep_p u.endStep_mem
    exact (hadvance.trans (exec_keepsFrame hexec)).trans hend

/-- Settles O34: the registers and flags of the frame. -/
theorem stepNeverWritesXYOrTheOtherFlags : Obligations.StepNeverWritesXYOrTheOtherFlags := by
  intro s t h
  have hframe := step_keepsFrame h
  exact ⟨hframe.x, hframe.y, hframe.c, hframe.i, hframe.d, hframe.b, hframe.v⟩

/-- Settles O35: the memory of the frame. -/
theorem stepWritesOnlyTheStackPage : Obligations.StepWritesOnlyTheStackPage :=
  fun _ _ addr h => (step_keepsFrame h).mem addr

/-! ## Z and N -/

/-- A step keeps the flags or sees a byte with SetZN. -/
theorem step_p_cases {s t : State} (h : step s = .next t) : t.p = s.p ∨ ∃ v, t.p = s.p.setZN v := by
  obtain ⟨-, rfl⟩ | ⟨-, -, rfl⟩ | ⟨-, -, -, rfl⟩ | ⟨-, -, i, rest, u, -, hexec, rfl⟩ := step_cases h
  · exact .inl rfl
  · exact .inl rfl
  · exact .inl rfl
  · rw [State.endStep_p]
    obtain hp | hp := exec_p_cases hexec
    · exact .inl hp
    · exact .inr ⟨u.a, hp⟩

/-- Settles O36: kept flags stay as they were, and SetZN never sets both. -/
theorem stepKeepsZeroAndNegativeExclusive : Obligations.StepKeepsZeroAndNegativeExclusive := by
  intro s t hs h
  obtain hp | ⟨v, hp⟩ := step_p_cases h
  · rwa [hp]
  · rw [hp]
    exact Flags.setZN_exclusive s.p v

/-! ## The invariant -/

theorem loopOk_iff_of_idle {s : State} (h : s.run = .idle) : s.loopOk = true ↔ s.budget = 0 := by
  simp [State.loopOk, h]

theorem loopOk_iff_of_dispatching {s : State} (h : s.run = .dispatching) :
    s.loopOk = true ↔ 0 < s.budget := by
  simp [State.loopOk, h]

theorem loopOk_iff_of_faulted {s : State} {byte : Byte} {pc : Word} (h : s.run = .faulted byte pc) :
    s.loopOk = true ↔ lookupOpcode byte = none := by
  simp [State.loopOk, h]

/-- Settles O37: no cell is listed, and Idle has no budget. -/
theorem resetMeetsTheInvariant : Obligations.ResetMeetsTheInvariant :=
  ⟨Memory.wf_nil, (loopOk_iff_of_idle rfl).2 rfl⟩

theorem exec_wf {i : Instr} {s t : State} (hs : s.mem.wf) (h : exec i s = .next t) : t.mem.wf := by
  obtain ⟨-, v, rfl⟩ | ⟨target, -, rfl⟩ | ⟨-, rfl⟩ := exec_cases h
  · exact hs
  · exact State.wf_pushWord hs (s.pc + 1)
  · exact hs

theorem step_wf {s t : State} (hs : s.mem.wf) (h : step s = .next t) : t.mem.wf := by
  obtain ⟨-, rfl⟩ | ⟨-, -, rfl⟩ | ⟨-, -, -, rfl⟩ | ⟨-, -, i, rest, u, -, hexec, rfl⟩ := step_cases h
  · exact hs
  · exact hs
  · exact hs
  · rw [State.endStep_mem]
    exact exec_wf (s := s.advance) hs hexec

/-- After an instruction the loop goes on with budget or is Idle without. -/
theorem loopOk_endStep {s : State} (hdisp : s.run = .dispatching) : s.endStep.loopOk = true := by
  have hrun := State.endStep_run s
  by_cases hb : s.budget = 0
  · rw [if_pos hb] at hrun
    rw [loopOk_iff_of_idle hrun, State.endStep_budget, hb]
  · rw [if_neg hb, hdisp] at hrun
    rw [loopOk_iff_of_dispatching hrun, State.endStep_budget]
    exact Nat.pos_of_ne_zero hb

theorem step_loopOk {s t : State} (hs : s.loopOk = true) (h : step s = .next t) : t.loopOk = true := by
  obtain ⟨-, rfl⟩ | ⟨-, hb, rfl⟩ | ⟨-, -, ⟨e, hdec⟩, rfl⟩ | ⟨hdisp, -, i, rest, u, -, hexec, rfl⟩ :=
    step_cases h
  · exact hs
  · exact (loopOk_iff_of_idle rfl).2 hb
  · exact (loopOk_iff_of_faulted rfl).2 (memRead_pc_of_decodeAtPc_error hdec)
  · exact loopOk_endStep ((exec_run hexec).trans hdisp)

/-- Settles O38: the memory by the memory operations, the loop state by the four kinds of step. -/
theorem stepKeepsTheInvariant : Obligations.StepKeepsTheInvariant := by
  rintro s t ⟨hmem, hloop⟩ h
  exact ⟨step_wf hmem h, step_loopOk hloop h⟩

/-! ## When a step stops -/

theorem exists_step_of_running {s : State} (hrun : s.Running) : ∃ t, step s = .next t := by
  cases hdec : s.decodeAtPc with
  | ok r =>
    obtain ⟨u, -, hu⟩ := exists_step_of_decodeAtPc (i := r.1) (rest := r.2) hrun hdec
    exact ⟨_, hu⟩
  | error e => exact ⟨_, step_of_decodeAtPc_error hrun hdec⟩

theorem exists_step_of_notFaulted {s : State} (h : s.notFaulted = true) : ∃ t, step s = .next t := by
  cases hrun : s.run with
  | idle => exact ⟨s, step_of_idle hrun⟩
  | dispatching =>
    by_cases hb : s.budget = 0
    · exact ⟨_, step_of_no_budget hrun hb⟩
    · exact exists_step_of_running ⟨hrun, Nat.pos_of_ne_zero hb⟩
  | faulted byte pc => exact absurd hrun (notFaulted_iff.1 h byte pc)

/-- Settles O39: without a record a step goes on, with one it stops with it, and the invariant says what
the record names. -/
theorem stepFailsOnlyWhenFaulted : Obligations.StepFailsOnlyWhenFaulted := by
  rintro s ⟨-, hloop⟩
  by_cases hnf : s.notFaulted = true
  · obtain ⟨t, ht⟩ := exists_step_of_notFaulted hnf
    rw [ht]
    exact ⟨trivial, fun _ => ⟨t, rfl⟩, fun _ => hnf⟩
  · obtain ⟨byte, pc, hrun⟩ := exists_faulted_of_not_notFaulted hnf
    rw [step_of_faulted hrun]
    refine ⟨(loopOk_iff_of_faulted hrun).1 hloop, fun h => absurd h hnf, ?_⟩
    rintro ⟨t, ht⟩
    cases ht

end Sys2Proof.Machine
end

section
/-! SUPPORT. A, Y and the flags reach nothing but themselves (10_state.md R21, R23, R27): two states that
agree on X, SP, PC, memory, budget and run do so after every operation and every step. -/

namespace Sys2Proof.Machine

section
variable {s t : State} (h : s.sameControl t)
include h

theorem sameControl_consume (n : Nat) : (s.consume n).sameControl (t.consume n) := by
  obtain ⟨hx, hsp, hpc, hm, hb, hr⟩ := h
  simp [State.sameControl, hx, hsp, hpc, hm, hb, hr]

theorem sameControl_advance : s.advance.sameControl t.advance := by
  obtain ⟨hx, hsp, hpc, hm, hb, hr⟩ := h
  simp [State.sameControl, hx, hsp, hpc, hm, hb, hr]

theorem sameControl_withRun (r : RunState) : (s.withRun r).sameControl (t.withRun r) := by
  obtain ⟨hx, hsp, hpc, hm, hb, -⟩ := h
  exact ⟨hx, hsp, hpc, hm, hb, rfl⟩

theorem sameControl_endStep : s.endStep.sameControl t.endStep := by
  obtain ⟨hx, hsp, hpc, hm, hb, hr⟩ := h
  simp [State.sameControl, State.endStep_run, hx, hsp, hpc, hm, hb, hr]

/-- The byte loaded goes to A, so the two may load different ones. -/
theorem sameControl_afterLoad (v w : Byte) (n : Nat) :
    (s.afterLoad v n).sameControl (t.afterLoad w n) := by
  obtain ⟨hx, hsp, hpc, hm, hb, hr⟩ := h
  simp [State.sameControl, hx, hsp, hpc, hm, hb, hr]

theorem sameControl_afterJsr (target : Word) : (s.afterJsr target).sameControl (t.afterJsr target) := by
  obtain ⟨hx, hsp, hpc, hm, hb, hr⟩ := h
  simp [State.sameControl, State.pushWord_eq, hx, hsp, hpc, hm, hb, hr]

theorem memRead_pc_of_sameControl : s.memRead s.pc = t.memRead t.pc := by
  obtain ⟨-, -, hpc, hm, -, -⟩ := h
  rw [hpc, State.memRead_congr hm]

theorem decodeAtPc_of_sameControl : s.decodeAtPc = t.decodeAtPc := by
  obtain ⟨-, -, hpc, hm, -, -⟩ := h
  simp only [State.decodeAtPc, State.fetchBytes, hpc, State.memRead_congr hm]

theorem running_of_sameControl (hrun : s.Running) : t.Running := by
  obtain ⟨-, -, -, -, hb, hr⟩ := h
  exact ⟨hr.symm.trans hrun.1, hb ▸ hrun.2⟩

theorem exec_sameControl {i : Instr} {s' : State} (hexec : exec i s = .next s') :
    ∃ t', exec i t = .next t' ∧ s'.sameControl t' := by
  obtain ⟨hload, v, rfl⟩ | ⟨target, rfl, rfl⟩ | ⟨rfl, rfl⟩ := exec_cases hexec
  · obtain ⟨w, hw⟩ := exec_of_isLoad hload t
    exact ⟨_, hw, sameControl_afterLoad h v w _⟩
  · exact ⟨_, exec_jsr target t, sameControl_afterJsr h target⟩
  · exact ⟨_, exec_nop t, sameControl_consume h 1⟩

/-- The same kind of step, from the same bytes at PC. -/
theorem step_sameControl {s' : State} (hstep : step s = .next s') :
    ∃ t', step t = .next t' ∧ s'.sameControl t' := by
  have hdecode := decodeAtPc_of_sameControl h
  have ⟨_, _, hpc, _, hb, hr⟩ := h
  obtain ⟨hidle, rfl⟩ | ⟨hdisp, hzero, rfl⟩ | ⟨hdisp, hpos, ⟨e, hdec⟩, rfl⟩ |
    ⟨hdisp, hpos, i, rest, u, hdec, hexec, rfl⟩ := step_cases hstep
  · exact ⟨t, step_of_idle (hr.symm.trans hidle), h⟩
  · exact ⟨_, step_of_no_budget (hr.symm.trans hdisp) (hb.symm.trans hzero),
      sameControl_withRun h .idle⟩
  · have hrun : t.Running := running_of_sameControl h ⟨hdisp, Nat.pos_of_ne_zero hpos⟩
    refine ⟨_, step_of_decodeAtPc_error hrun (hdecode.symm.trans hdec), ?_⟩
    rw [memRead_pc_of_sameControl h, hpc]
    exact sameControl_withRun (sameControl_advance h) (.faulted (t.memRead t.pc) t.pc)
  · have hrun : t.Running := running_of_sameControl h ⟨hdisp, Nat.pos_of_ne_zero hpos⟩
    obtain ⟨w, hw, huw⟩ := exec_sameControl (sameControl_advance h) hexec
    refine ⟨w.endStep, ?_, sameControl_endStep huw⟩
    rw [step_of_decodeAtPc hrun (hdecode.symm.trans hdec), hw]
    rfl

end

/-- Settles O56: the four kinds of step, each taken by both states. -/
theorem stepDoesNotReadAYOrFlags : Obligations.StepDoesNotReadAYOrFlags :=
  fun _ _ _ h hstep => step_sameControl h hstep

end Sys2Proof.Machine
end

section
/-! SUPPORT. The loop of Execute (40_dispatch.md R80 to R85, R94): every turn takes a cycle, so the loop ends,
and what every turn keeps the whole Execute keeps. -/

namespace Sys2Proof.Machine

/-! ## Induction over the loop -/

/-- A turn that fetches takes at least the cycle of its opcode fetch (R94). -/
theorem step_budget_lt {s t : State} (hrun : s.Running) (h : step s = .next t) :
    t.budget < s.budget := by
  have hpos : s.budget - 1 < s.budget := Nat.sub_lt hrun.2 Nat.one_pos
  cases hdec : s.decodeAtPc with
  | ok r =>
    obtain ⟨u, hexec, hu⟩ := exists_step_of_decodeAtPc (i := r.1) (rest := r.2) hrun hdec
    obtain rfl : u.endStep = t := Host.Outcome.next.inj (hu.symm.trans h)
    rw [State.endStep_budget, exec_budget hexec, State.advance_budget]
    exact Nat.lt_of_le_of_lt (Nat.sub_le _ _) hpos
  | error e =>
    rw [step_of_decodeAtPc_error hrun hdec] at h
    obtain rfl := Host.Outcome.next.inj h
    rwa [State.takeInvalidOpcode_budget, State.advance_budget]

theorem loopOk_of_running {s : State} (hrun : s.Running) : s.loopOk = true :=
  (loopOk_iff_of_dispatching hrun.1).2 hrun.2

theorem running_of_loopOk {s : State} (hdisp : s.run = .dispatching) (hs : s.loopOk = true) :
    s.Running :=
  ⟨hdisp, (loopOk_iff_of_dispatching hdisp).1 hs⟩

/-- Induction over the turns of the loop, from the state in which it ends back to its start. -/
theorem loop_induction {P : State → Prop} (done : ∀ s, s.run ≠ .dispatching → s.loopOk = true → P s)
    (turn : ∀ s t, s.Running → step s = .next t → t.loopOk = true → P t → P s)
    (s : State) (hs : s.loopOk = true) : P s := by
  induction hn : s.budget using Nat.strong_induction_on generalizing s with
  | _ n ih =>
    by_cases hdisp : s.run = .dispatching
    · have hrun := running_of_loopOk hdisp hs
      obtain ⟨t, ht⟩ := exists_step_of_running hrun
      have htok := step_loopOk hs ht
      exact turn s t hrun ht htok (ih t.budget (hn ▸ step_budget_lt hrun ht) t htok rfl)
    · exact done s hdisp hs

/-! ## The step bound does not matter -/

theorem executeLoop_of_not_dispatching {s : State} (h : s.run ≠ .dispatching) (n m : Nat) :
    executeLoop n s = executeLoop m s := by
  cases hrun : s.run with
  | idle => rw [executeLoop_idle hrun, executeLoop_idle hrun]
  | dispatching => exact absurd hrun h
  | faulted byte pc => rw [executeLoop_faulted hrun, executeLoop_faulted hrun]

theorem executeLoop_snd_of_not_dispatching {s : State} (h : s.run ≠ .dispatching) (n : Nat) :
    (executeLoop n s).2 = s := by
  cases hrun : s.run with
  | idle => rw [executeLoop_idle hrun]
  | dispatching => exact absurd hrun h
  | faulted byte pc => rw [executeLoop_faulted hrun]

theorem executeLoop_of_pos {s t : State} (hdisp : s.run = .dispatching) (h : step s = .next t) {n : Nat}
    (hn : 0 < n) : executeLoop n s = executeLoop (n - 1) t := by
  rw [← executeLoop_succ hdisp h (n - 1), Nat.sub_add_cancel hn]

/-- A bound of at least the budget never cuts the loop off (log 21). -/
theorem executeLoop_of_budget_le {s : State} (hs : s.loopOk = true) :
    ∀ n, s.budget ≤ n → executeLoop n s = executeLoop s.budget s := by
  refine loop_induction (P := fun s => ∀ n, s.budget ≤ n → executeLoop n s = executeLoop s.budget s)
    (fun s hdone _ n _ => executeLoop_of_not_dispatching hdone n s.budget) ?_ s hs
  intro s t hrun ht _ ih n hn
  have hlt := step_budget_lt hrun ht
  rw [executeLoop_of_pos hrun.1 ht (Nat.lt_of_lt_of_le hrun.2 hn), executeLoop_of_pos hrun.1 ht hrun.2,
    ih (n - 1) (by omega), ih (s.budget - 1) (by omega)]

/-- One turn, with the budget as the bound before and after it. -/
theorem executeLoop_of_step {s t : State} (hrun : s.Running) (h : step s = .next t) :
    executeLoop s.budget s = executeLoop t.budget t := by
  have hlt := step_budget_lt hrun h
  rw [executeLoop_of_pos hrun.1 h hrun.2,
    executeLoop_of_budget_le (step_loopOk (loopOk_of_running hrun) h) (s.budget - 1) (by omega)]

/-- What holds of a loop that ends at once, and of a loop when it holds of the loop after its first turn,
holds of every loop. -/
theorem executeLoop_induction {P : State → ExecuteResult × State → Prop}
    (idle : ∀ s, s.run = .idle → s.budget = 0 → P s (.ok, s))
    (faulted : ∀ s byte pc, s.run = .faulted byte pc → lookupOpcode byte = none → P s (.err byte pc, s))
    (turn : ∀ s t r, s.Running → step s = .next t → P t r → P s r)
    (s : State) (hs : s.loopOk = true) : P s (executeLoop s.budget s) := by
  refine loop_induction (P := fun s => P s (executeLoop s.budget s)) ?_ ?_ s hs
  · intro s hdone hs
    cases hrun : s.run with
    | idle =>
      rw [executeLoop_idle hrun]
      exact idle s hrun ((loopOk_iff_of_idle hrun).1 hs)
    | dispatching => exact absurd hrun hdone
    | faulted byte pc =>
      rw [executeLoop_faulted hrun]
      exact faulted s byte pc hrun ((loopOk_iff_of_faulted hrun).1 hs)
  · intro s t hrun ht _ ih
    rw [executeLoop_of_step hrun ht]
    exact turn s t _ hrun ht ih

/-! ## Execute as its loop -/

theorem loopOk_startExecute (s : State) (b : Nat) : (s.startExecute b).loopOk = true := by
  by_cases hb : b = 0
  · exact (loopOk_iff_of_idle (by rw [State.startExecute_run, if_pos hb])).2 hb
  · exact (loopOk_iff_of_dispatching (by rw [State.startExecute_run, if_neg hb])).2
      (Nat.pos_of_ne_zero hb)

theorem execute_of_notFaulted {s : State} (h : s.notFaulted = true) (b : Nat) :
    execute b s = executeLoop (s.startExecute b).budget (s.startExecute b) :=
  execute_eq_executeLoop (notFaulted_iff.1 h) b

theorem running_startExecute (s : State) {b : Nat} (hb : 0 < b) : (s.startExecute b).Running :=
  running_of_loopOk (by rw [State.startExecute_run, if_neg (Nat.ne_of_gt hb)]) (loopOk_startExecute s b)

/-- A running state is one that Execute of its own budget has entered. -/
theorem startExecute_budget_of_running {s : State} (hrun : s.Running) : s.startExecute s.budget = s := by
  refine State.ext_fields rfl rfl rfl rfl rfl rfl rfl rfl ?_
  rw [State.startExecute_run, if_neg (Nat.ne_of_gt hrun.2), hrun.1]

theorem notFaulted_of_running {s : State} (hrun : s.Running) : s.notFaulted = true := by
  simp [State.notFaulted, hrun.1]

/-- Settles O44: the arm of Faulted. -/
theorem executeInFaultedReturnsTheSameErr : Obligations.ExecuteInFaultedReturnsTheSameErr := by
  intro b s byte pc hrun
  simp only [execute, hrun]

/-- What holds of every loop that Execute enters, and of Faulted, holds of Execute. -/
theorem execute_cases {P : ExecuteResult × State → Prop} (b : Nat) (s : State)
    (faulted : ∀ byte pc, s.run = .faulted byte pc → P (.err byte pc, s))
    (loop : s.notFaulted = true → P (executeLoop (s.startExecute b).budget (s.startExecute b))) :
    P (execute b s) := by
  by_cases hnf : s.notFaulted = true
  · rw [execute_of_notFaulted hnf]
    exact loop hnf
  · obtain ⟨byte, pc, hrun⟩ := exists_faulted_of_not_notFaulted hnf
    rw [executeInFaultedReturnsTheSameErr b s byte pc hrun]
    exact faulted byte pc hrun

/-- Settles O43: without budget the loop is entered as Idle. -/
theorem executeZeroFetchesNothing : Obligations.ExecuteZeroFetchesNothing := by
  intro s hnf
  rw [execute_of_notFaulted hnf, executeLoop_idle (s := s.startExecute 0) rfl]
  rfl

/-- Settles O41: the first turn of the loop, and the three loop states it can leave. -/
theorem executeIsFirstStepThenTheRest : Obligations.ExecuteIsFirstStepThenTheRest := by
  intro b s t hnf hb ht
  have hrun := running_startExecute s hb
  rw [execute_of_notFaulted hnf, executeLoop_of_step hrun ht]
  refine ⟨fun hdisp => ?_, fun hidle => executeLoop_idle hidle t.budget,
    fun byte pc hfault => executeLoop_faulted hfault t.budget⟩
  have htrun := running_of_loopOk hdisp (step_loopOk (loopOk_of_running hrun) ht)
  rw [execute_of_notFaulted (notFaulted_of_running htrun), startExecute_budget_of_running htrun]

/-- Settles O42: the first turn takes the one cycle, and a loop without budget does not go on. -/
theorem executeOneRunsOneInstruction : Obligations.ExecuteOneRunsOneInstruction := by
  intro s hnf
  have hrun := running_startExecute s Nat.one_pos
  obtain ⟨t, ht⟩ := exists_step_of_running hrun
  have hdone : t.run ≠ .dispatching := by
    intro hdisp
    have htrun := running_of_loopOk hdisp (step_loopOk (loopOk_of_running hrun) ht)
    exact absurd (step_budget_lt hrun ht) (Nat.not_lt.2 htrun.2)
  refine ⟨t, ht, ?_, hdone⟩
  rw [execute_of_notFaulted hnf, executeLoop_of_step hrun ht, executeLoop_snd_of_not_dispatching hdone]

/-! ## How Execute ends -/

/-- The two endings of R94. -/
def ExecuteEnds (r : ExecuteResult × State) : Prop :=
  (∃ t : State, r = (.ok, t) ∧ t.run = .idle ∧ t.budget = 0) ∨
  (∃ (t : State) (byte : Byte) (pc : Word), r = (.err byte pc, t) ∧ t.run = .faulted byte pc)

/-- Settles O40: each turn keeps how the loop ends. -/
theorem executeEndsIdleOrFaulted : Obligations.ExecuteEndsIdleOrFaulted := by
  intro b s
  refine execute_cases (P := ExecuteEnds) b s (fun byte pc hrun => .inr ⟨s, byte, pc, rfl, hrun⟩)
    fun _ => ?_
  exact executeLoop_induction (P := fun _ => ExecuteEnds)
    (fun s hrun hb => .inl ⟨s, rfl, hrun, hb⟩)
    (fun s byte pc hrun _ => .inr ⟨s, byte, pc, rfl, hrun⟩)
    (fun _ _ _ _ _ hr => hr) _ (loopOk_startExecute s b)

/-! ## What Execute keeps -/

theorem executeLoop_keepsFrame {s : State} (hs : s.loopOk = true) :
    s.KeepsFrame (executeLoop s.budget s).2 :=
  executeLoop_induction (P := fun s r => s.KeepsFrame r.2)
    (fun s _ _ => .refl s) (fun s _ _ _ _ => .refl s)
    (fun _ _ _ _ hstep hr => (step_keepsFrame hstep).trans hr) s hs

/-- Settles O47: entering the loop and each turn of it keep the frame. -/
theorem executeFrame : Obligations.ExecuteFrame := by
  intro b s t
  have hframe : s.KeepsFrame t := by
    refine execute_cases (P := fun r => s.KeepsFrame r.2) b s (fun _ _ _ => .refl s) fun _ => ?_
    have hstart : s.KeepsFrame (s.startExecute b) := .of_eq rfl rfl rfl rfl
    exact hstart.trans (executeLoop_keepsFrame (loopOk_startExecute s b))
  exact ⟨hframe.x, hframe.y, hframe.c, hframe.i, hframe.d, hframe.b, hframe.v, hframe.mem⟩

theorem execute_inv {b : Nat} {s : State} (hs : s.Inv) :
    (execute b s).2.Inv ∧ (execute b s).2.run ≠ .dispatching := by
  refine execute_cases (P := fun r => r.2.Inv ∧ r.2.run ≠ .dispatching) b s
    (fun byte pc hrun => ⟨hs, by simp [hrun]⟩) fun _ => ?_
  refine executeLoop_induction (P := fun s r => s.mem.wf → r.2.Inv ∧ r.2.run ≠ .dispatching)
    ?_ ?_ ?_ _ (loopOk_startExecute s b) hs.1
  · exact fun s hrun hb hmem => ⟨⟨hmem, (loopOk_iff_of_idle hrun).2 hb⟩, by simp [hrun]⟩
  · exact fun s byte pc hrun hlook hmem =>
      ⟨⟨hmem, (loopOk_iff_of_faulted hrun).2 hlook⟩, by simp [hrun]⟩
  · exact fun s t r _ hstep ih hmem => ih (step_wf hmem hstep)

/-! ## Two runs alike in all but A, Y and the flags -/

theorem sameControl_startExecute {s t : State} (h : s.sameControl t) (b : Nat) :
    (s.startExecute b).sameControl (t.startExecute b) := by
  obtain ⟨hx, hsp, hpc, hm, -, -⟩ := h
  exact ⟨hx, hsp, hpc, hm, rfl, rfl⟩

theorem executeLoop_sameControl {s t : State} (hs : s.loopOk = true) (h : s.sameControl t) :
    (executeLoop s.budget s).1 = (executeLoop t.budget t).1 ∧
      (executeLoop s.budget s).2.sameControl (executeLoop t.budget t).2 := by
  refine executeLoop_induction (P := fun s r => ∀ t, s.sameControl t →
    r.1 = (executeLoop t.budget t).1 ∧ r.2.sameControl (executeLoop t.budget t).2) ?_ ?_ ?_ s hs t h
  · intro s hidle _ t h
    have ⟨_, _, _, _, _, hr⟩ := h
    rw [executeLoop_idle (hr.symm.trans hidle)]
    exact ⟨rfl, h⟩
  · intro s byte pc hfault _ t h
    have ⟨_, _, _, _, _, hr⟩ := h
    rw [executeLoop_faulted (hr.symm.trans hfault)]
    exact ⟨rfl, h⟩
  · intro s s' r hrun hstep ih t h
    obtain ⟨t', ht', h'⟩ := step_sameControl h hstep
    rw [executeLoop_of_step (running_of_sameControl h hrun) ht']
    exact ih t' h'

/-- Settles O46: the same record if there is one, and otherwise two loops that go turn by turn. -/
theorem executeDoesNotReadAYOrFlags : Obligations.ExecuteDoesNotReadAYOrFlags := by
  intro b s t h
  have ⟨_, _, _, _, _, hr⟩ := h
  refine execute_cases (P := fun r => r.1 = (execute b t).1 ∧ r.2.sameControl (execute b t).2) b s
    (fun byte pc hfault => ?_) fun hnf => ?_
  · rw [executeInFaultedReturnsTheSameErr b t byte pc (hr.symm.trans hfault)]
    exact ⟨rfl, h⟩
  · have htnf : t.notFaulted = true := notFaulted_iff.2 (hr ▸ notFaulted_iff.1 hnf)
    rw [execute_of_notFaulted htnf]
    exact executeLoop_sameControl (loopOk_startExecute s b) (sameControl_startExecute h b)

/-! ## Memory that holds only the filler -/

/-- Where a run of NOPs that uses up the budget leaves a state: a NOP for every two cycles, and one more for
an odd one (R121). -/
def State.afterNops (s : State) : State :=
  { s with pc := s.pc + BitVec.ofNat 16 ((s.budget + 1) / 2), budget := 0, run := .idle }

theorem State.afterNops_of_idle {s : State} (hrun : s.run = .idle) (hb : s.budget = 0) :
    s.afterNops = s := by
  refine State.ext_fields rfl rfl rfl rfl ?_ rfl rfl hb.symm hrun.symm
  simp [State.afterNops, hb]

/-- The first NOP and the run of NOPs after it. -/
theorem State.afterNops_of_pos (s : State) (r : RunState) (hb : 0 < s.budget) :
    State.afterNops { s with pc := s.pc + 1, budget := s.budget - 2, run := r } = s.afterNops := by
  have hcount : (s.budget + 1) / 2 = 1 + (s.budget - 2 + 1) / 2 := by omega
  refine State.ext_fields rfl rfl rfl rfl ?_ rfl rfl rfl rfl
  simp only [State.afterNops, hcount, BitVec.ofNat_add, ← BitVec.add_assoc]
  rfl

theorem executeLoop_of_filler {s : State} (hs : s.loopOk = true)
    (hnf : ∀ byte pc, s.run ≠ .faulted byte pc) (hmem : ∀ addr : Word, s.memRead addr = 0xEA) :
    executeLoop s.budget s = (.ok, s.afterNops) := by
  refine executeLoop_induction (P := fun s r => (∀ byte pc, s.run ≠ .faulted byte pc) →
    (∀ addr : Word, s.memRead addr = 0xEA) → r = (.ok, s.afterNops)) ?_ ?_ ?_ s hs hnf hmem
  · intro s hrun hb _ _
    rw [State.afterNops_of_idle hrun hb]
  · exact fun s byte pc hrun _ hnf _ => absurd hrun (hnf byte pc)
  · intro s t r hrun hstep ih _ hmem
    obtain rfl := Host.Outcome.next.inj ((nopStep s hrun (hmem s.pc)).symm.trans hstep)
    rw [ih (runAfter_ne_faulted _) hmem, State.afterNops_of_pos s _ hrun.2]

/-- Settles O45: every turn of the loop finds a NOP. -/
theorem fillerMemoryRunsNops : Obligations.FillerMemoryRunsNops := by
  intro b s hnf hmem
  have hstart : ∀ byte pc, (s.startExecute b).run ≠ .faulted byte pc := runAfter_ne_faulted b
  rw [execute_of_notFaulted hnf, executeLoop_of_filler (loopOk_startExecute s b) hstart hmem]
  rfl

end Sys2Proof.Machine
end

section
/-! SUPPORT. The operations of the host (70_reset_and_hazards.md R150 to R153): what each does, when it is
refused (20_memory.md R55), and what every session of them keeps (10_state.md R34, 60_exceptions.md R134). -/

namespace Sys2Proof.Machine

/-! ## The effect of an operation -/

/-- Settles O49: Construct and Reset are the reset state, whose fields are the values listed. -/
theorem constructAndResetGiveTheResetState : Obligations.ConstructAndResetGiveTheResetState :=
  ⟨rfl, fun s => ⟨hostReset_eq s, rfl, rfl, rfl, rfl, rfl, rfl, State.memRead_reset, rfl, rfl⟩⟩

theorem Flags.get_set (p : Flags) (f g : Flag) (value : Bool) :
    (p.set f value).get g = if g = f then value else p.get g := by
  cases f <;> cases g <;> rfl

/-- Settles O50: each write names one field; a flag and a memory cell are read back by their own laws. -/
theorem hostWritesChangeWhatTheyName : Obligations.HostWritesChangeWhatTheyName := fun s v w f g value =>
  ⟨rfl, rfl, rfl, rfl, rfl, rfl, Flags.get_set s.p f g value, State.memWrite_frame s w v,
    State.memRead_memWrite_self s w v, fun _ hne => State.memRead_memWrite_ne s hne v⟩

/-- Settles O51: Dispatching is the arm that refuses, and outside it an operation is applied. -/
theorem hostActsOnlyBetweenExecutes : Obligations.HostActsOnlyBetweenExecutes := by
  intro op s
  constructor
  · intro hnone
    by_contra hdisp
    rw [hostApply_eq_run hdisp op] at hnone
    cases hnone
  · intro hdisp
    simp only [hostApply, hdisp]

/-- Settles O54: an operation is applied between Execute calls, and each applies the function of its name. -/
theorem hostOperationsHaveTheirEffect : Obligations.HostOperationsHaveTheirEffect := by
  intro s hrun
  have happly := hostApply_eq_run hrun
  refine ⟨?_, fun v => happly (.setA v), fun v => happly (.setX v), fun v => happly (.setY v),
    fun v => happly (.setSp v), fun v => happly (.setPc v), fun f value => ?_, fun addr v => ?_,
    fun b => happly (.execute b), happly .observe⟩
  · rw [happly .reset, HostOp.run, hostReset_eq]
  · exact ⟨s.p.set f value, happly (.setFlag f value), fun g => Flags.get_set s.p f g value⟩
  · exact ⟨s.memWrite addr v, happly (.load addr v), State.memWrite_frame s addr v,
      State.memRead_memWrite_self s addr v, fun _ hne => State.memRead_memWrite_ne s hne v⟩

/-! ## What a session keeps -/

/-- A register or flag the host writes is in no clause of the invariant; Load keeps the canonical form,
and Reset and Execute end in sound states. -/
theorem HostOp.run_inv (op : HostOp) {s : State} (hs : s.Inv) (hrun : s.run ≠ .dispatching) :
    (op.run s).2.Inv ∧ (op.run s).2.run ≠ .dispatching := by
  cases op with
  | reset =>
    rw [HostOp.run, hostReset_eq]
    exact ⟨resetMeetsTheInvariant, fun h => by cases h⟩
  | load addr v => exact ⟨⟨State.wf_memWrite hs.1 addr v, hs.2⟩, hrun⟩
  | setA v => exact ⟨hs, hrun⟩
  | setX v => exact ⟨hs, hrun⟩
  | setY v => exact ⟨hs, hrun⟩
  | setSp v => exact ⟨hs, hrun⟩
  | setPc v => exact ⟨hs, hrun⟩
  | setFlag f value => exact ⟨hs, hrun⟩
  | execute b => exact execute_inv hs
  | observe => exact ⟨hs, hrun⟩

/-- Settles O55: between Execute calls an operation is applied, and each keeps the invariant. -/
theorem hostOperationsKeepTheInvariant : Obligations.HostOperationsKeepTheInvariant :=
  fun op _ hs hrun => ⟨_, hostApply_eq_run hrun op, op.run_inv hs hrun⟩

theorem hostSession_cons {s : State} (h : s.run ≠ .dispatching) (op : HostOp) (ops : List HostOp) :
    hostSession (op :: ops) s = hostSession ops (op.run s).2 := by
  simp only [hostSession, hostApply_eq_run h op]

/-- A session from any sound state between Execute calls. -/
theorem hostSession_inv (ops : List HostOp) {s : State} (hs : s.Inv) (hrun : s.run ≠ .dispatching) :
    ∃ t : State, hostSession ops s = some t ∧ t.Inv ∧ t.run ≠ .dispatching := by
  induction ops generalizing s with
  | nil => exact ⟨s, rfl, hs, hrun⟩
  | cons op ops ih =>
    obtain ⟨hs', hrun'⟩ := op.run_inv hs hrun
    rw [hostSession_cons hrun]
    exact ih hs' hrun'

/-- Settles O52: Construct gives a sound state between Execute calls. -/
theorem hostSessionsKeepTheInvariant : Obligations.HostSessionsKeepTheInvariant := fun ops =>
  hostSession_inv ops (s := construct) resetMeetsTheInvariant fun h => by cases h

/-! ## Faulted -/

/-- Only Reset writes the loop state of a faulted machine: Execute makes no step there. -/
theorem HostOp.run_of_faulted {op : HostOp} (hop : op ≠ .reset) {s : State} {byte : Byte} {pc : Word}
    (h : s.run = .faulted byte pc) : (op.run s).2.run = .faulted byte pc := by
  cases op with
  | reset => exact absurd rfl hop
  | load addr v => exact h
  | setA v => exact h
  | setX v => exact h
  | setY v => exact h
  | setSp v => exact h
  | setPc v => exact h
  | setFlag f value => exact h
  | execute b =>
    rw [HostOp.run, executeInFaultedReturnsTheSameErr b s byte pc h]
    exact h
  | observe => exact h

/-- Settles O53: operation by operation, and Reset at the end from whatever state is left. -/
theorem faultedLastsUntilReset : Obligations.FaultedLastsUntilReset := by
  intro ops s byte pc h hops
  have hrun : s.run ≠ .dispatching := by simp [h]
  induction ops generalizing s with
  | nil =>
    refine ⟨⟨s, rfl, h⟩, ?_⟩
    rw [List.nil_append, hostSession_cons hrun, HostOp.run, hostReset_eq, hostSession]
  | cons op ops ih =>
    obtain ⟨hop, hops⟩ := List.forall_mem_cons.1 hops
    have h' := HostOp.run_of_faulted hop h
    rw [List.cons_append, hostSession_cons hrun, hostSession_cons hrun]
    exact ih (op.run s).2 h' hops (by simp [h'])

end Sys2Proof.Machine
end
